-- ==== Sys2Proof/Word.lean ====
section
/-! DEFINITION. The widths of the block's values (00_scope.md R6, R7; 30_encoding.md R38, R39). -/

namespace Sys2Proof

/-- One byte of a two-byte transfer (R9). -/
abbrev Byte := BitVec 8

/-- A 16-bit register value: a ConfigWord or a ConversionWord (`W_CFGW` = `W_CONV` = 16, R6). -/
abbrev Half := BitVec 16

/-- The response word R (`W_R` = 32, R6). -/
abbrev RWord := BitVec 32

/-- A command word C (R38): OP in bits 35:32, the operand field A in bits 31:0. -/
abbrev Command := BitVec 36

end Sys2Proof
end

