-- ==== Sys2Proof/Syntax.lean ====
section
/-! DEFINITION. The nine commands (30_encoding.md R40, R41), one constructor per row of spec/opcode_table.json.
Operand names and widths are those of R41. -/

namespace Sys2Proof

/-- A legal command. Each operand has exactly the width of its field in R41, so every term of this type has an encoding;
a channel of 4 or more and a reserved gain code are legal encodings whose execution faults (R42). -/
inductive Instr where
  /-- OP 0x1 (R56). -/
  | loadcfg (fs : Half) (asel : BitVec 2) (g : BitVec 3) (dr : BitVec 3) (cm : BitVec 1) (cp : BitVec 1) (cl : BitVec 1)
      (cq : BitVec 2)
  /-- OP 0x2 (R57). -/
  | enccfg (ch : BitVec 8)
  /-- OP 0x3 (R59). -/
  | cfgbytes (w : Half)
  /-- OP 0x4 (R60). -/
  | cfgword (b0 : Byte) (b1 : Byte)
  /-- OP 0x5 (R62). -/
  | decstat (w : Half)
  /-- OP 0x6 (R64). -/
  | rdymatch (ch : BitVec 8) (w : Half)
  /-- OP 0x7 (R65). -/
  | decconv (b0 : Byte) (b1 : Byte)
  /-- OP 0x8 (R66). -/
  | encconv (raw : Half)
  /-- OP 0x9 (R70). -/
  | tovolt (raw : Half)
deriving DecidableEq, Repr

/-- The operation names of R40. -/
inductive Mnemonic where
  | LOADCFG | ENCCFG | CFGBYTES | CFGWORD | DECSTAT | RDYMATCH | DECCONV | ENCCONV | TOVOLT
deriving DecidableEq, Repr

/-- The operation a command belongs to. -/
def Instr.mnemonic : Instr → Mnemonic
  | .loadcfg _ _ _ _ _ _ _ _ => .LOADCFG
  | .enccfg _ => .ENCCFG
  | .cfgbytes _ => .CFGBYTES
  | .cfgword _ _ => .CFGWORD
  | .decstat _ => .DECSTAT
  | .rdymatch _ _ => .RDYMATCH
  | .decconv _ _ => .DECCONV
  | .encconv _ => .ENCCONV
  | .tovolt _ => .TOVOLT

/-- The pseudo-instructions of R55: two commands, the second of which takes an operand from the first one's R. -/
inductive Pseudo where
  | encwire (ch : BitVec 8)
  | statwire (b0 : Byte) (b1 : Byte)
  | readywire (ch : BitVec 8) (b0 : Byte) (b1 : Byte)
  | voltwire (b0 : Byte) (b1 : Byte)
deriving DecidableEq, Repr

/-- The keywords of a written LOADCFG (R54). -/
inductive Keyword where
  | asel | gain | rate | cmode | cpol | clat | cque | fs
deriving DecidableEq, Repr

/-- A written command (R54): operands are the numbers as written, before they are fitted to their fields. -/
inductive Asm where
  | loadcfg (operands : List (Keyword × Int))
  | enccfg (ch : Int)
  | cfgbytes (w : Int)
  | cfgword (b0 : Int) (b1 : Int)
  | decstat (w : Int)
  | rdymatch (ch : Int) (w : Int)
  | decconv (b0 : Int) (b1 : Int)
  | encconv (raw : Int)
  | tovolt (raw : Int)
deriving DecidableEq, Repr

end Sys2Proof
end

