-- ==== Sys2Proof/WellFormed.lean ====
section
/-! DEFINITION. What is well formed: a command word (30_encoding.md R42), stated from the tables of R40 and R41 and of
spec/opcode_table.json without the decoder, and a written command (R54). A term of `Instr` needs no check: its operands
have exactly the widths of their fields. -/

namespace Sys2Proof

/-- One row of spec/opcode_table.json: a word belongs to the row when its bits under `mask` are `pattern`. -/
structure OpcodeRow where
  mask : Command
  pattern : Command
deriving DecidableEq, Repr

/-- spec/opcode_table.json, row by row. -/
def opcodeRow : Mnemonic → OpcodeRow
  | .LOADCFG => { mask := 0xF0000C100#36, pattern := 0x100000000#36 }
  | .ENCCFG => { mask := 0xFFFFFFF00#36, pattern := 0x200000000#36 }
  | .CFGBYTES => { mask := 0xFFFFF0000#36, pattern := 0x300000000#36 }
  | .CFGWORD => { mask := 0xFFFFF0000#36, pattern := 0x400000000#36 }
  | .DECSTAT => { mask := 0xFFFFF0000#36, pattern := 0x500000000#36 }
  | .RDYMATCH => { mask := 0xFFF000000#36, pattern := 0x600000000#36 }
  | .DECCONV => { mask := 0xFFFFF0000#36, pattern := 0x700000000#36 }
  | .ENCCONV => { mask := 0xFFFFF0000#36, pattern := 0x800000000#36 }
  | .TOVOLT => { mask := 0xFFFFF0000#36, pattern := 0x900000000#36 }

/-- The word belongs to the row. -/
def OpcodeRow.holds (row : OpcodeRow) (c : Command) : Bool :=
  decide (c &&& row.mask = row.pattern)

/-- The operand bits that R41 marks `0`, per assigned OP (0x1 to 0x9). -/
def reservedOperandBits (op : BitVec 4) : BitVec 32 :=
  if op = 0x1#4 then 0x0000C100#32
  else if op = 0x2#4 then 0xFFFFFF00#32
  else if op = 0x6#4 then 0xFF000000#32
  else 0xFFFF0000#32

/-- R42: OP is one of 0x1 to 0x9 and every reserved operand bit is 0. -/
def legalCommand (c : Command) : Bool :=
  let op := c.extractLsb' 32 4
  decide (1 ≤ op.toNat) && decide (op.toNat ≤ 9) && decide (c.extractLsb' 0 32 &&& reservedOperandBits op = 0#32)

/-- A written number fits an unsigned field of `n` bits (R54). -/
def fitsField (n : Nat) (v : Int) : Bool := decide (0 ≤ v) && decide (v < 2 ^ n)

/-- A written RAW fits: a 16-bit pattern, or a signed number from -32768 (R54; the union of both ranges is log 11). -/
def fitsRaw (v : Int) : Bool := decide (-32768 ≤ v) && decide (v < 65536)

/-- The eight keywords of a written LOADCFG (R54). -/
def Keyword.all : List Keyword := [.asel, .gain, .rate, .cmode, .cpol, .clat, .cque, .fs]

/-- The width of a keyword's field (R41, R54). -/
def Keyword.width : Keyword → Nat
  | .asel => 2
  | .gain => 3
  | .rate => 3
  | .cmode => 1
  | .cpol => 1
  | .clat => 1
  | .cque => 2
  | .fs => 16

/-- R54: every operand fits its field; a LOADCFG has all eight keywords, in any order, each once (log 12). -/
def Asm.wellFormed : Asm → Bool
  | .loadcfg ops =>
    ops.length == 8 && Keyword.all.all (fun k => (ops.map Prod.fst).contains k)
      && ops.all (fun o => fitsField o.1.width o.2)
  | .enccfg ch => fitsField 8 ch
  | .cfgbytes w => fitsField 16 w
  | .cfgword b0 b1 => fitsField 8 b0 && fitsField 8 b1
  | .decstat w => fitsField 16 w
  | .rdymatch ch w => fitsField 8 ch && fitsField 16 w
  | .decconv b0 b1 => fitsField 8 b0 && fitsField 8 b1
  | .encconv raw => fitsRaw raw
  | .tovolt raw => fitsRaw raw

end Sys2Proof
end

