-- ==== Sys2Proof/Decode.lean ====
section
/-! DEFINITION. The decoder of 30_encoding.md R43, total on 36-bit words, and the encoder written from R40 and R41. -/

namespace Sys2Proof

/-- Why a word is illegal (R42). -/
inductive DecodeReject where
  /-- OP is 0x0 or 0xA to 0xF. -/
  | unassignedOp (op : BitVec 4)
  /-- A reserved operand bit of this operation is 1. -/
  | reservedBitSet (m : Mnemonic)
deriving DecidableEq, Repr

/-- OP = C[35:32] (R38). -/
def opField (c : Command) : BitVec 4 := c.extractLsb' 32 4

/-- A = C[31:0] (R38). -/
def operandField (c : Command) : BitVec 32 := c.extractLsb' 0 32

/-- R43. -/
def decode (c : Command) : Except DecodeReject Instr :=
  let a := operandField c
  match (opField c).toNat with
  | 1 =>
    if a.extractLsb' 14 2 = 0#2 ∧ a.extractLsb' 8 1 = 0#1 then
      .ok (.loadcfg (a.extractLsb' 16 16) (a.extractLsb' 12 2) (a.extractLsb' 9 3) (a.extractLsb' 5 3)
        (a.extractLsb' 4 1) (a.extractLsb' 3 1) (a.extractLsb' 2 1) (a.extractLsb' 0 2))
    else .error (.reservedBitSet .LOADCFG)
  | 2 => if a.extractLsb' 8 24 = 0#24 then .ok (.enccfg (a.extractLsb' 0 8)) else .error (.reservedBitSet .ENCCFG)
  | 3 => if a.extractLsb' 16 16 = 0#16 then .ok (.cfgbytes (a.extractLsb' 0 16)) else .error (.reservedBitSet .CFGBYTES)
  | 4 =>
    if a.extractLsb' 16 16 = 0#16 then .ok (.cfgword (a.extractLsb' 8 8) (a.extractLsb' 0 8))
    else .error (.reservedBitSet .CFGWORD)
  | 5 => if a.extractLsb' 16 16 = 0#16 then .ok (.decstat (a.extractLsb' 0 16)) else .error (.reservedBitSet .DECSTAT)
  | 6 =>
    if a.extractLsb' 24 8 = 0#8 then .ok (.rdymatch (a.extractLsb' 16 8) (a.extractLsb' 0 16))
    else .error (.reservedBitSet .RDYMATCH)
  | 7 =>
    if a.extractLsb' 16 16 = 0#16 then .ok (.decconv (a.extractLsb' 8 8) (a.extractLsb' 0 8))
    else .error (.reservedBitSet .DECCONV)
  | 8 => if a.extractLsb' 16 16 = 0#16 then .ok (.encconv (a.extractLsb' 0 16)) else .error (.reservedBitSet .ENCCONV)
  | 9 => if a.extractLsb' 16 16 = 0#16 then .ok (.tovolt (a.extractLsb' 0 16)) else .error (.reservedBitSet .TOVOLT)
  | _ => .error (.unassignedOp (opField c))

/-- R38, R40, R41: OP, then the operand field with its reserved bits 0, most significant bits first. (`cast` only
adds up the widths.) -/
def encode : Instr → Command
  | .loadcfg fs asel g dr cm cp cl cq => (0x1#4 ++ fs ++ 0b00#2 ++ asel ++ g ++ 0b0#1 ++ dr ++ cm ++ cp ++ cl ++ cq).cast (by rfl)
  | .enccfg ch => (0x2#4 ++ 0#24 ++ ch).cast (by rfl)
  | .cfgbytes w => (0x3#4 ++ 0#16 ++ w).cast (by rfl)
  | .cfgword b0 b1 => (0x4#4 ++ 0#16 ++ b0 ++ b1).cast (by rfl)
  | .decstat w => (0x5#4 ++ 0#16 ++ w).cast (by rfl)
  | .rdymatch ch w => (0x6#4 ++ 0#8 ++ ch ++ w).cast (by rfl)
  | .decconv b0 b1 => (0x7#4 ++ 0#16 ++ b0 ++ b1).cast (by rfl)
  | .encconv raw => (0x8#4 ++ 0#16 ++ raw).cast (by rfl)
  | .tovolt raw => (0x9#4 ++ 0#16 ++ raw).cast (by rfl)

/-- The instruction the decoder reads from a word numbered as spec/opcode_table.json numbers it (bit 0 of C is bit 0 of the
word). Bits at `nbits` and above count as 0; a word that sets one of the bits 36 and above is no 36-bit command (log 9). -/
def decodeTableWord (nbits w : Nat) : Option Instr :=
  if w % 2 ^ nbits < 2 ^ 36 then
    match decode (BitVec.ofNat 36 (w % 2 ^ nbits)) with
    | .ok i => some i
    | .error _ => none
  else none

end Sys2Proof
end

