-- ==== Sys2Proof/Config.lean ====
section
/-! DEFINITION. What an implementation fixes and the spec leaves OPEN (00_scope.md R6; decisions D9, D21).
Both are constants without a body: nothing in Lean can evaluate them, so whatever is proved holds for every table. -/

namespace Sys2Proof

/-- `FS_OF_GAIN` less one, uninterpreted. D9 gives the type `{0..5} -> {1..65535}`: a number below 65535 plus one is
exactly a value of 1..65535. The entries at the reserved codes 6 and 7 are never consulted (R56). Log 6. -/
opaque Config.fsOfGainLessOne : BitVec 3 → Fin 65535

/-- `FS_OF_GAIN` (R6, D9): the full-scale value, in millivolts, that FS_MV must equal for a gain code. -/
def Config.fsOfGain (g : BitVec 3) : Half :=
  BitVec.ofNat 16 ((Config.fsOfGainLessOne g).val + 1)

/-- `BUS_ADDR_OF_SEL` (R6, R27, D21): the 7-bit bus address of each strap selection, uninterpreted; no command reads it.
Log 7. -/
opaque Config.busAddrOfSel : BitVec 2 → BitVec 7

end Sys2Proof
end

