-- ==== Sys2Proof/Machine/State.lean ====
section
/-! DEFINITION. The block's state (10_state.md), the response, the host's list, and the reset state (R23). -/

namespace Sys2Proof.Machine

/-- The fields of the configuration register CFG (R15). They hold a configuration only while CFG_VALID = 1 (R16). -/
structure Cfg where
  /-- ADDR_SEL: the strap selection of the bus address; no command reads it. -/
  addrSel : BitVec 2
  /-- GAIN: ConfigWord bits 11:9. -/
  gain : BitVec 3
  /-- RATE: ConfigWord bits 7:5. -/
  rate : BitVec 3
  /-- COMP_MODE: ConfigWord bit 4. -/
  compMode : BitVec 1
  /-- COMP_POL: ConfigWord bit 3. -/
  compPol : BitVec 1
  /-- COMP_LAT: ConfigWord bit 2. -/
  compLat : BitVec 1
  /-- COMP_QUE: ConfigWord bits 1:0. -/
  compQue : BitVec 2
  /-- FS_MV: unsigned millivolts; the scaler maps code -32768 to exactly -FS_MV (R15, R70). -/
  fsMv : Half
deriving DecidableEq, Repr

/-- The FAULT record (R19). -/
structure FaultRecord where
  /-- FLT. -/
  flt : Bool
  /-- FCODE. -/
  fcode : BitVec 4
  /-- FINFO. -/
  finfo : BitVec 4
deriving DecidableEq, Repr

/-- The response to one command (R39). -/
structure Response where
  /-- R. -/
  r : RWord
  /-- F: the command faulted. -/
  f : Bool
  /-- FC: the recorded FCODE of a fault, else 0. -/
  fc : BitVec 4
deriving DecidableEq, Repr

/-- The causes of a fault, with the detail that tells them apart (R76). Raising one is an effect of the block, a next
state; it never stops the machine (log 8). -/
inductive FaultCause where
  /-- R77: OP not assigned, or a reserved operand bit is 1. -/
  | illegalCommand
  /-- R78, GAIN_RESERVED: LOADCFG with gain code 0b110 or 0b111. -/
  | gainReserved
  /-- R78, FS_MISMATCH: LOADCFG with FS not equal to FS_OF_GAIN(G). -/
  | fsMismatch
  /-- R78, CHANNEL_RANGE: ENCCFG or RDYMATCH with a channel of 4 or more. -/
  | channelRange
  /-- R79: ENCCFG or TOVOLT while CFG_VALID = 0. -/
  | notConfigured
  /-- R80: LOADCFG while CFG_VALID = 1. -/
  | configReloaded
deriving DecidableEq, Repr

/-- What the outside presents to the block, one per step. -/
inductive HostEvent where
  /-- One command word (R2, R38). -/
  | command (c : Command)
  /-- Reset is asserted (R90; log 2). -/
  | reset
deriving DecidableEq, Repr

/-- The machine. The block has no registers but these, no memory and no program counter (R13, R14). -/
structure State where
  /-- CFG_VALID (R16). -/
  cfgValid : Bool
  /-- CFG (R15). -/
  cfg : Cfg
  /-- FLT, FCODE, FINFO (R19). -/
  fault : FaultRecord
  /-- The response to the last command answered since reset, if any (R21, R39; log 5). -/
  resp : Option Response
  /-- What the host has yet to present, first to come first (R14; the model's own field, log 1). -/
  pending : List HostEvent
deriving DecidableEq, Repr

/-- Replaces the response. -/
def State.setResp (s : State) (r : Option Response) : State := { s with resp := r }

/-- Replaces the fault record. -/
def State.setFault (s : State) (fr : FaultRecord) : State := { s with fault := fr }

/-- Loads CFG and sets CFG_VALID (R56). -/
def State.setCfg (s : State) (c : Cfg) : State := { s with cfg := c, cfgValid := true }

/-- Replaces the host's list. -/
def State.setPending (s : State) (p : List HostEvent) : State := { s with pending := p }

/-- The machine right after reset (R23, R90): CFG_VALID = 0, FLT = FCODE = FINFO = 0. The zeros of CFG are a DESIGN
CHOICE: the spec gives its fields no value (log 4). No command has been answered (log 5) and the host's list is empty
(log 1). -/
def State.reset : State where
  cfgValid := false
  cfg :=
    { addrSel := 0#2, gain := 0#3, rate := 0#3, compMode := 0#1, compPol := 0#1, compLat := 0#1, compQue := 0#2,
      fsMv := 0#16 }
  fault := { flt := false, fcode := 0x0#4, finfo := 0x0#4 }
  resp := none
  pending := []

/-- Why a step stops the machine: never. Each fault of the spec is an entry that the block takes and answers (R74, R75),
so there is no reason to list (log 8). -/
inductive Fault
deriving DecidableEq, Repr

/-- Why an instruction has no meaning in the model. -/
inductive Refusal where
  /-- Raised by an arm of `exec` that has no meaning yet; no arm is left that raises it. Safe: a refused run proves
  nothing. -/
  | notModelled (mnemonic : String)
deriving DecidableEq, Repr

end Sys2Proof.Machine
end

