-- ==== Sys2Proof/Machine/Operands.lean ====
section
/-! DEFINITION. Operand forms and data encodings: the byte helpers (00_scope.md R9), the channel operand and its MUX code
(30_encoding.md R47), and the ConfigWord (R45). -/

namespace Sys2Proof.Machine

/-- `be16(b0, b1)` (R9, R29): `b0` is the byte first on the wire. -/
def be16 (b0 b1 : Byte) : Half := (b0 ++ b1).cast (by rfl)

/-- The byte of a register value that is first on the wire: `w[15:8]` (R9, R29). -/
def firstByte (w : Half) : Byte := w.extractLsb' 8 8

/-- The byte of a register value that is second on the wire: `w[7:0]` (R9, R29). -/
def secondByte (w : Half) : Byte := w.extractLsb' 0 8

/-- `zext_32` of a register value (R8). -/
def zext32 (w : Half) : RWord := w.setWidth 32

/-- `sext_32` of a register value (R8). -/
def sext32 (w : Half) : RWord := w.signExtend 32

/-- The channel an 8-bit channel operand names, if it names one: `N_CH` = 4 (R6, D11). It is never truncated (R57). -/
def channelOf (ch : BitVec 8) : Option (Fin 4) :=
  if h : ch.toNat < 4 then some ⟨ch.toNat, h⟩ else none

/-- `MUX_OF_CHANNEL` (R6, R47). -/
def muxOfChannel : Fin 4 → BitVec 3
  | 0 => 0b100#3
  | 1 => 0b101#3
  | 2 => 0b110#3
  | 3 => 0b111#3

/-- `GAIN_RESERVED` (R6, R48): the codes 0b110 and 0b111. -/
def gainReserved (g : BitVec 3) : Bool := decide (6 ≤ g.toNat)

/-- The ConfigWord that starts a single-shot conversion (R45, R57): OS = 1, the MUX code, GAIN, MODE = 1 (R50), RATE and
the comparator fields as CFG holds them (R51). -/
def startWord (c : Cfg) (mux : BitVec 3) : Half :=
  (0b1#1 ++ mux ++ c.gain ++ 0b1#1 ++ c.rate ++ c.compMode ++ c.compPol ++ c.compLat ++ c.compQue).cast (by rfl)

/-- `scale(RAW, FS)` (R69): the exact product of the signed code and the unsigned full scale, as a Q17.15 number (R53). -/
def scale (raw fs : Half) : RWord := BitVec.ofInt 32 (raw.toInt * (fs.toNat : Int))

end Sys2Proof.Machine
end

