-- ==== Sys2Proof/Machine/Flags.lean ====
section
/-! DEFINITION. The block keeps no status flags (10_state.md R20). What stands here are the one-bit results it computes
from a read-back ConfigWord and never holds, and the numbers of a fault (60_exceptions.md R76). -/

namespace Sys2Proof.Machine

/-- The ready bit of a read-back ConfigWord: bit 15 (R46, R62). -/
def readyBit (w : Half) : BitVec 1 := w.extractLsb' 15 1

/-- The latched multiplexer code of a read-back ConfigWord: bits 14:12 (R62). -/
def activeMux (w : Half) : BitVec 3 := w.extractLsb' 12 3

/-- The readiness-and-match predicate (R64, R95): both conditions, never either alone. -/
def readyAndMatching (c : Fin 4) (w : Half) : Bool :=
  readyBit w == 0b1#1 && activeMux w == muxOfChannel c

/-- FCODE of a cause (R76). -/
def faultCode : FaultCause → BitVec 4
  | .illegalCommand => 0x1#4
  | .gainReserved => 0x2#4
  | .fsMismatch => 0x2#4
  | .channelRange => 0x2#4
  | .notConfigured => 0x3#4
  | .configReloaded => 0x4#4

/-- FINFO of a cause (R76). -/
def faultInfo : FaultCause → BitVec 4
  | .illegalCommand => 0x0#4
  | .gainReserved => 0x1#4
  | .fsMismatch => 0x2#4
  | .channelRange => 0x3#4
  | .notConfigured => 0x0#4
  | .configReloaded => 0x0#4

end Sys2Proof.Machine
end

