-- ==== Sys2Proof/Machine/Ops.lean ====
section
/-! DEFINITION. The operations every meaning is built from: completing a command (30_encoding.md R39), taking a fault
(60_exceptions.md R74), answering in the faulted state (R75), the common checks (R82) and reset (R90). -/

namespace Sys2Proof.Machine

/-- `R <- r` of a command that completes: F = 0, FC = 0 (R39). -/
def complete (r : RWord) (s : State) : State :=
  s.setResp (some { r := r, f := false, fc := 0x0#4 })

/-- The fault response, taken from the record: F = 1, FC = FCODE, R = zext_32(FINFO) (R39, R74, R75). -/
def respondFault (s : State) : State :=
  s.setResp (some { r := s.fault.finfo.setWidth 32, f := true, fc := s.fault.fcode })

/-- The record's write of R74: only the first fault of a run writes it (R19). -/
def recordFault (c : FaultCause) (s : State) : State :=
  if s.fault.flt then s else s.setFault { flt := true, fcode := faultCode c, finfo := faultInfo c }

/-- TAKING A FAULT (R74): record it, then answer from the record; no other state changes. -/
def raiseFault (c : FaultCause) (s : State) : State :=
  respondFault (recordFault c s)

/-- The first check of R82: a faulted block executes nothing and answers the recorded fault (R75). -/
def unlessFaulted (body : State → State) (s : State) : State :=
  if s.fault.flt then respondFault s else body s

/-- The check of a command that reads CFG (R16, R79). -/
def whenConfigured (body : State → State) (s : State) : State :=
  if s.cfgValid then body s else raiseFault .notConfigured s

/-- The check of a channel operand (R57, R64, R78). -/
def withChannel (ch : BitVec 8) (body : Fin 4 → State → State) (s : State) : State :=
  match channelOf ch with
  | some c => body c s
  | none => raiseFault .channelRange s

/-- The answer to an illegal command (R42, R77), after the first check of R82. -/
def illegalCommand (s : State) : State :=
  unlessFaulted (raiseFault .illegalCommand) s

/-- RETURNING FROM A FAULT: only reset leaves the faulted state (R75, R85, R90). The block takes its reset values; the
host's list is the host's and stays (log 2). -/
def resetBlock (s : State) : State := State.reset.setPending s.pending

end Sys2Proof.Machine
end

