-- ==== Sys2Proof/Machine/ConfigCodec.lean ====
section
/-! DEFINITION. The configuration codec (40_config_codec.md): LOADCFG, ENCCFG, CFGBYTES, CFGWORD, DECSTAT, RDYMATCH. -/

namespace Sys2Proof.Machine

/-- LOADCFG (R56): the checks in the order written, then every field at once. -/
def execLoadcfg (fs : Half) (asel : BitVec 2) (g dr : BitVec 3) (cm cp cl : BitVec 1) (cq : BitVec 2) (s : State) :
    Host.Outcome State Fault Refusal :=
  .next (unlessFaulted (fun s =>
    if s.cfgValid then raiseFault .configReloaded s
    else if gainReserved g then raiseFault .gainReserved s
    else if fs ≠ Config.fsOfGain g then raiseFault .fsMismatch s
    else
      complete 0#32 (s.setCfg
        { addrSel := asel, gain := g, rate := dr, compMode := cm, compPol := cp, compLat := cl, compQue := cq,
          fsMv := fs })) s)

/-- ENCCFG (R57): NOT_CONFIGURED is checked before the channel. -/
def execEnccfg (ch : BitVec 8) (s : State) : Host.Outcome State Fault Refusal :=
  .next (unlessFaulted (whenConfigured (withChannel ch (fun c s =>
    complete (zext32 (startWord s.cfg (muxOfChannel c))) s))) s)

/-- CFGBYTES (R59): R[15:8] is sent first, R[7:0] second. -/
def execCfgbytes (w : Half) (s : State) : Host.Outcome State Fault Refusal :=
  .next (unlessFaulted (complete (zext32 (be16 (firstByte w) (secondByte w)))) s)

/-- CFGWORD (R60). -/
def execCfgword (b0 b1 : Byte) (s : State) : Host.Outcome State Fault Refusal :=
  .next (unlessFaulted (complete (zext32 (be16 b0 b1))) s)

/-- DECSTAT (R62): R[3] = ready, R[2:0] = active_mux. -/
def execDecstat (w : Half) (s : State) : Host.Outcome State Fault Refusal :=
  .next (unlessFaulted (complete ((readyBit w ++ activeMux w).setWidth 32)) s)

/-- RDYMATCH (R64): CFG is not read. -/
def execRdymatch (ch : BitVec 8) (w : Half) (s : State) : Host.Outcome State Fault Refusal :=
  .next (unlessFaulted (withChannel ch (fun c s =>
    complete ((BitVec.ofBool (readyAndMatching c w)).setWidth 32) s)) s)

end Sys2Proof.Machine
end

