-- ==== Sys2Proof/Machine/ConversionCodec.lean ====
section
/-! DEFINITION. The conversion codec (41_conversion_codec.md): DECCONV, ENCCONV. -/

namespace Sys2Proof.Machine

/-- DECCONV (R65): every byte pair is a code (R52); whether it belongs to a finished conversion is the host's duty. -/
def execDecconv (b0 b1 : Byte) (s : State) : Host.Outcome State Fault Refusal :=
  .next (unlessFaulted (complete (sext32 (be16 b0 b1))) s)

/-- ENCCONV (R66): R holds two bytes, not a number, so it is zero-extended. -/
def execEncconv (raw : Half) (s : State) : Host.Outcome State Fault Refusal :=
  .next (unlessFaulted (complete (zext32 (be16 (firstByte raw) (secondByte raw)))) s)

end Sys2Proof.Machine
end

