-- ==== Sys2Proof/Machine/VoltageScaler.lean ====
section
/-! DEFINITION. The voltage scaler (42_voltage_scaler.md): TOVOLT. -/

namespace Sys2Proof.Machine

/-- TOVOLT (R70): the full scale is the one loaded with the gain. -/
def execTovolt (raw : Half) (s : State) : Host.Outcome State Fault Refusal :=
  .next (unlessFaulted (whenConfigured (fun s => complete (scale raw s.cfg.fsMv) s)) s)

end Sys2Proof.Machine
end

