-- ==== Sys2Proof/Machine/Dispatch.lean ====
section
/-! DEFINITION. One arm per command (30_encoding.md R40), each a direct call of its meaning. -/

namespace Sys2Proof.Machine

def exec (i : Instr) (s : State) : Host.Outcome State Fault Refusal :=
  match i with
  -- 40_config_codec.md
  | .loadcfg fs asel g dr cm cp cl cq => Sys2Proof.Machine.execLoadcfg fs asel g dr cm cp cl cq s
  | .enccfg ch => Sys2Proof.Machine.execEnccfg ch s
  | .cfgbytes w => Sys2Proof.Machine.execCfgbytes w s
  | .cfgword b0 b1 => Sys2Proof.Machine.execCfgword b0 b1 s
  | .decstat w => Sys2Proof.Machine.execDecstat w s
  | .rdymatch ch w => Sys2Proof.Machine.execRdymatch ch w s
  -- 41_conversion_codec.md
  | .decconv b0 b1 => Sys2Proof.Machine.execDecconv b0 b1 s
  | .encconv raw => Sys2Proof.Machine.execEncconv raw s
  -- 42_voltage_scaler.md
  | .tovolt raw => Sys2Proof.Machine.execTovolt raw s

end Sys2Proof.Machine
end

