-- ==== Sys2Proof/Machine/Step.lean ====
section
/-! DEFINITION. One step: what the host presents next is taken from its list and answered (00_scope.md R2;
10_state.md R14; 20_memory.md R33, R35). -/

namespace Sys2Proof.Machine

/-- A command is decoded (R43) and executed, or answered as illegal (R77); a reset resets (R90); while nothing is
presented nothing happens (log 3). The faulted check of R82 is the first thing in `illegalCommand` and in every meaning
(log 10). -/
def step (s : State) : Host.Outcome State Fault Refusal :=
  match s.pending with
  | [] => .next s
  | .reset :: rest => .next (resetBlock (s.setPending rest))
  | .command c :: rest =>
    match decode c with
    | .ok i => exec i (s.setPending rest)
    | .error _ => .next (illegalCommand (s.setPending rest))

/-- The host presents one more command before anything else it holds: the very next step answers it. This stands for
loading a program from outside (log 9). The word is numbered as spec/opcode_table.json numbers it; a word of more than 36
bits cannot be presented and changes nothing. -/
def State.withFetchWord (s : State) (nbits w : Nat) : State :=
  if w % 2 ^ nbits < 2 ^ 36 then s.setPending (.command (BitVec.ofNat 36 (w % 2 ^ nbits)) :: s.pending) else s

end Sys2Proof.Machine
end

