-- ==== Sys2Proof/Machine/Assembler.lean ====
section
/-! DEFINITION. The spec's assembler syntax (30_encoding.md R54) and pseudo-instructions (R55). Neither is part of the
block: they say which commands a written line stands for. -/

namespace Sys2Proof.Machine

/-- The value written for a keyword; 0 where it is missing, which `Asm.wellFormed` refuses. -/
def keywordValue (ops : List (Keyword × Int)) (k : Keyword) : Int :=
  match ops with
  | [] => 0
  | (k', v) :: rest => if k' = k then v else keywordValue rest k

/-- R54: a written command whose operands all fit stands for one command; a RAW is assembled as `bits_16(value)`. An
operand that does not fit is an assembly error, not a command. -/
def assemble (a : Asm) : Option Instr :=
  if a.wellFormed then
    match a with
    | .loadcfg ops =>
      some (.loadcfg (BitVec.ofInt 16 (keywordValue ops .fs)) (BitVec.ofInt 2 (keywordValue ops .asel))
        (BitVec.ofInt 3 (keywordValue ops .gain)) (BitVec.ofInt 3 (keywordValue ops .rate))
        (BitVec.ofInt 1 (keywordValue ops .cmode)) (BitVec.ofInt 1 (keywordValue ops .cpol))
        (BitVec.ofInt 1 (keywordValue ops .clat)) (BitVec.ofInt 2 (keywordValue ops .cque)))
    | .enccfg ch => some (.enccfg (BitVec.ofInt 8 ch))
    | .cfgbytes w => some (.cfgbytes (BitVec.ofInt 16 w))
    | .cfgword b0 b1 => some (.cfgword (BitVec.ofInt 8 b0) (BitVec.ofInt 8 b1))
    | .decstat w => some (.decstat (BitVec.ofInt 16 w))
    | .rdymatch ch w => some (.rdymatch (BitVec.ofInt 8 ch) (BitVec.ofInt 16 w))
    | .decconv b0 b1 => some (.decconv (BitVec.ofInt 8 b0) (BitVec.ofInt 8 b1))
    | .encconv raw => some (.encconv (BitVec.ofInt 16 raw))
    | .tovolt raw => some (.tovolt (BitVec.ofInt 16 raw))
  else none

/-- The value of one digit in a base; letters stand for 10 to 15 in either case. -/
def digitValue (base : Nat) (c : Char) : Option Nat :=
  let n := c.toNat
  let v :=
    if 48 ≤ n ∧ n ≤ 57 then n - 48
    else if 65 ≤ n ∧ n ≤ 70 then n - 55
    else if 97 ≤ n ∧ n ≤ 102 then n - 87
    else 99
  if v < base then some v else none

/-- A non-empty run of digits. -/
def readDigits (base : Nat) (acc : Nat) : List Char → Option Nat
  | [] => none
  | [c] => (digitValue base c).map (fun d => acc * base + d)
  | c :: cs => (digitValue base c).bind (fun d => readDigits base (acc * base + d) cs)

/-- A number (R54): decimal, `0x` hexadecimal or `0b` binary; a decimal may carry a minus sign. -/
def readNumber : List Char → Option Int
  | '0' :: 'x' :: cs => (readDigits 16 0 cs).map Int.ofNat
  | '0' :: 'b' :: cs => (readDigits 2 0 cs).map Int.ofNat
  | '-' :: cs => (readDigits 10 0 cs).map (fun n => -(Int.ofNat n))
  | cs => (readDigits 10 0 cs).map Int.ofNat

/-- Splits at a separator; always at least one piece. -/
def splitAtChar (sep : Char) : List Char → List (List Char)
  | [] => [[]]
  | c :: cs =>
    if c = sep then [] :: splitAtChar sep cs
    else
      match splitAtChar sep cs with
      | [] => [[c]]
      | p :: ps => (c :: p) :: ps

/-- The characters that are not blanks (log 12). -/
def dropBlanks (cs : List Char) : List Char := cs.filter (fun c => c ≠ ' ')

/-- The mnemonic, up to the first blank, and what follows it. -/
def readMnemonic : List Char → List Char × List Char
  | [] => ([], [])
  | ' ' :: cs => ([], cs)
  | c :: cs => (c :: (readMnemonic cs).1, (readMnemonic cs).2)

/-- A keyword's spelling (R54). -/
def readKeyword (cs : List Char) : Option Keyword :=
  if cs = ['a', 's', 'e', 'l'] then some .asel
  else if cs = ['g', 'a', 'i', 'n'] then some .gain
  else if cs = ['r', 'a', 't', 'e'] then some .rate
  else if cs = ['c', 'm', 'o', 'd', 'e'] then some .cmode
  else if cs = ['c', 'p', 'o', 'l'] then some .cpol
  else if cs = ['c', 'l', 'a', 't'] then some .clat
  else if cs = ['c', 'q', 'u', 'e'] then some .cque
  else if cs = ['f', 's'] then some .fs
  else none

/-- `keyword=number`. -/
def readAssignment (cs : List Char) : Option (Keyword × Int) :=
  match splitAtChar '=' cs with
  | [k, v] => (readKeyword k).bind (fun k => (readNumber v).map (fun n => (k, n)))
  | _ => none

/-- The operands of a line, separated by commas. -/
def readOperands (cs : List Char) : List (List Char) := (splitAtChar ',' cs).map dropBlanks

/-- A mnemonic's spelling (R40). -/
def readOperation (cs : List Char) : Option Mnemonic :=
  if cs = ['L', 'O', 'A', 'D', 'C', 'F', 'G'] then some .LOADCFG
  else if cs = ['E', 'N', 'C', 'C', 'F', 'G'] then some .ENCCFG
  else if cs = ['C', 'F', 'G', 'B', 'Y', 'T', 'E', 'S'] then some .CFGBYTES
  else if cs = ['C', 'F', 'G', 'W', 'O', 'R', 'D'] then some .CFGWORD
  else if cs = ['D', 'E', 'C', 'S', 'T', 'A', 'T'] then some .DECSTAT
  else if cs = ['R', 'D', 'Y', 'M', 'A', 'T', 'C', 'H'] then some .RDYMATCH
  else if cs = ['D', 'E', 'C', 'C', 'O', 'N', 'V'] then some .DECCONV
  else if cs = ['E', 'N', 'C', 'C', 'O', 'N', 'V'] then some .ENCCONV
  else if cs = ['T', 'O', 'V', 'O', 'L', 'T'] then some .TOVOLT
  else none

/-- The operands of an operation, put in their places. -/
def placeOperands (m : Mnemonic) (ops : List (List Char)) : Option Asm :=
  match m, ops with
  | .LOADCFG, ops => (ops.mapM readAssignment).map .loadcfg
  | .ENCCFG, [a] => (readNumber a).map .enccfg
  | .CFGBYTES, [a] => (readNumber a).map .cfgbytes
  | .CFGWORD, [a, b] => (readNumber a).bind (fun x => (readNumber b).map (.cfgword x))
  | .DECSTAT, [a] => (readNumber a).map .decstat
  | .RDYMATCH, [a, b] => (readNumber a).bind (fun x => (readNumber b).map (.rdymatch x))
  | .DECCONV, [a, b] => (readNumber a).bind (fun x => (readNumber b).map (.decconv x))
  | .ENCCONV, [a] => (readNumber a).map .encconv
  | .TOVOLT, [a] => (readNumber a).map .tovolt
  | _, _ => none

/-- One line of R54: the mnemonic, then operands separated by commas. -/
def readLine (cs : List Char) : Option Asm :=
  (readOperation (readMnemonic cs).1).bind (fun m => placeOperands m (readOperands (readMnemonic cs).2))

/-- The command word a line stands for, if it is one. -/
def assembleLine (cs : List Char) : Option Command :=
  (readLine cs).bind (fun a => (assemble a).map encode)

/-- The first command of a pseudo-instruction (R55). -/
def pseudoFirst : Pseudo → Instr
  | .encwire ch => .enccfg ch
  | .statwire b0 b1 => .cfgword b0 b1
  | .readywire _ b0 b1 => .cfgword b0 b1
  | .voltwire b0 b1 => .decconv b0 b1

/-- The second command of a pseudo-instruction: the host substitutes `$R`, the R of the first one's response (R55). -/
def pseudoSecond (p : Pseudo) (r : RWord) : Instr :=
  match p with
  | .encwire _ => .cfgbytes (r.extractLsb' 0 16)
  | .statwire _ _ => .decstat (r.extractLsb' 0 16)
  | .readywire ch _ _ => .rdymatch ch (r.extractLsb' 0 16)
  | .voltwire _ _ => .tovolt (r.extractLsb' 0 16)

end Sys2Proof.Machine
end

