-- ==== Sys2Proof/Machine/HostTables.lean ====
section
/-! DEFINITION. Tables the spec keeps for whoever uses the block's words. No command reads them: the device's register map
and pointer byte (20_memory.md R25, R26), the bus address (R27), the rate table (30_encoding.md R49) and the poll-interval
table (70_reset_and_hazards.md R103). -/

namespace Sys2Proof.Machine

/-- The device's four registers (R25). -/
inductive DeviceRegister where
  | conversion | configuration | lowThreshold | highThreshold
deriving DecidableEq, Repr

/-- The access kinds the register map names (R25). -/
inductive DeviceAccess where
  | readOnly | readWrite
deriving DecidableEq, Repr

/-- The access kind of a register in the map (R25): "conversion (read-only)", "configuration (read/write)"; the map names
none for the threshold registers. -/
def deviceAccess : DeviceRegister → Option DeviceAccess
  | .conversion => some .readOnly
  | .configuration => some .readWrite
  | .lowThreshold | .highThreshold => none

/-- register_id (R25). -/
def registerId : DeviceRegister → BitVec 2
  | .conversion => 0b00#2
  | .configuration => 0b01#2
  | .lowThreshold => 0b10#2
  | .highThreshold => 0b11#2

/-- The pointer byte that precedes a payload or selects a register for a read (R26). -/
def pointerByte (r : DeviceRegister) : Byte := (registerId r).setWidth 8

/-- The payload of a register write as it crosses the wire: the pointer byte, then the value, most significant byte first
(R26, R29). There is one only for a register the map gives as written: not for the read-only conversion register (R25), and
not for the threshold registers, whose access the map leaves open (log 14). -/
def wirePayload (r : DeviceRegister) (w : Half) : Option (List Byte) :=
  match deviceAccess r with
  | some .readWrite => some [pointerByte r, w.extractLsb' 8 8, w.extractLsb' 0 8]
  | some .readOnly | none => none

/-- The bus address the loaded strap selection names (R27); none while CFG holds no value (R16). -/
def busAddress (s : State) : Option (BitVec 7) :=
  if s.cfgValid then some (Config.busAddrOfSel s.cfg.addrSel) else none

/-- Samples per second of a RATE code (R49). -/
def samplesPerSecond (rate : BitVec 3) : Nat :=
  match rate.toNat with
  | 0 => 8
  | 1 => 16
  | 2 => 32
  | 3 => 64
  | 4 => 128
  | 5 => 250
  | 6 => 475
  | _ => 860

/-- The minimum poll interval in microseconds (R103), with the integer division of decision D19. -/
def pollIntervalUs (rate : BitVec 3) : Nat := 1000 + 1000000 / samplesPerSecond rate

end Sys2Proof.Machine
end

