-- ==== Sys2Proof/Safety.lean ====
section
/-! DEFINITION. What a failed and a successful run are (60_exceptions.md R75), which host programs are safe
(70_reset_and_hazards.md R91, with the operand checks of R83), and the invariant of the machine. -/

namespace Sys2Proof.Machine

/-- R75: a run that reaches FLT = 1 has failed. -/
def State.failed (s : State) : Bool := s.fault.flt

/-- `k` steps from `s` end in `t`, and no state on the way, the first and the last among them, has FLT = 1 (R75). -/
def succeeds (k : Nat) (s t : State) : Prop :=
  Sys2Proof.core.run k s = .next t ∧ ∀ j ≤ k, ∀ u, Sys2Proof.core.run j s = .next u → u.failed = false

/-- R18: while CFG_VALID = 1 the gain code is legal and FS_MV is the value paired with it. -/
def State.cfgConsistent (s : State) : Prop :=
  s.cfgValid = true → s.cfg.gain.toNat ≤ 5 ∧ s.cfg.fsMv = Config.fsOfGain s.cfg.gain

/-- R19 and R76: without a fault the record is zero, and with one it is a row of the table. -/
def State.faultListed (s : State) : Prop :=
  (s.fault.flt = false → s.fault.fcode = 0x0#4 ∧ s.fault.finfo = 0x0#4) ∧
  (s.fault.flt = true →
    (s.fault.fcode, s.fault.finfo) ∈
      [(0x1#4, 0x0#4), (0x2#4, 0x1#4), (0x2#4, 0x2#4), (0x2#4, 0x3#4), (0x3#4, 0x0#4), (0x4#4, 0x0#4)])

/-- R39, R74, R75: the last response shows a fault exactly when the block is faulted, and then shows the record. -/
def State.respAgrees (s : State) : Prop :=
  ∀ r, s.resp = some r →
    r.f = s.fault.flt ∧ (r.f = false → r.fc = 0x0#4) ∧
      (r.f = true → r.fc = s.fault.fcode ∧ r.r = s.fault.finfo.setWidth 32)

/-- The invariant every step keeps. -/
structure State.Inv (s : State) : Prop where
  cfgConsistent : s.cfgConsistent
  faultListed : s.faultListed
  respAgrees : s.respAgrees

/-- A command that completes on an unfaulted block whose CFG_VALID is `valid` (R83, R91). -/
def commandSafe (valid : Bool) : Instr → Bool
  | .loadcfg fs _ g _ _ _ _ _ => !valid && decide (g.toNat ≤ 5) && fs == Config.fsOfGain g
  | .enccfg ch => valid && decide (ch.toNat ≤ 3)
  | .cfgbytes _ => true
  | .cfgword _ _ => true
  | .decstat _ => true
  | .rdymatch ch _ => decide (ch.toNat ≤ 3)
  | .decconv _ _ => true
  | .encconv _ => true
  | .tovolt _ => valid

/-- CFG_VALID after a command that completes (R16). -/
def validAfter (valid : Bool) : Instr → Bool
  | .loadcfg _ _ _ _ _ _ _ _ => true
  | .enccfg _ => valid
  | .cfgbytes _ => valid
  | .cfgword _ _ => valid
  | .decstat _ => valid
  | .rdymatch _ _ => valid
  | .decconv _ _ => valid
  | .encconv _ => valid
  | .tovolt _ => valid

/-- The boot order of R91 with operands in range: LOADCFG at most once, before any ENCCFG or TOVOLT. -/
def safeProgram (valid : Bool) : List Instr → Bool
  | [] => true
  | i :: is => commandSafe valid i && safeProgram (validAfter valid i) is

end Sys2Proof.Machine
end

