-- ==== Sys2Proof/Certificates/Slice0/Obligations.lean ====
section
/-! DEFINITION. The statements for the provers. Each names the rules of spec/ it formalises; the codes of a fault are
written as the numbers of 60_exceptions.md R76. "Presented" means: at the head of the host's list, `pending`, which is the
model's own field (log 1), as is the reset entry in it (log 2); the clauses about `pending` are the model's, and no rule is
cited for them. That a faulting command's step is a next state and not a stop is log 8. -/

open Sys2Proof Sys2Proof.Machine

/-! ## Encoding and decoding (30_encoding.md) -/

/-- Command words of the spec's examples and vectors decode to the commands the spec says they are. -/
def Obligations.SpecExampleWordsDecode : Prop :=
  decode 0x108000483#36 = .ok (.loadcfg 2048 0 2 4 0 0 0 3) ∧
  decode 0x1180030FC#36 = .ok (.loadcfg 6144 3 0 7 1 1 1 0) ∧
  decode 0x200000001#36 = .ok (.enccfg 1) ∧
  decode 0x30000D583#36 = .ok (.cfgbytes 0xD583) ∧
  decode 0x400004583#36 = .ok (.cfgword 0x45 0x83) ∧
  decode 0x50000C583#36 = .ok (.decstat 0xC583) ∧
  decode 0x60001C583#36 = .ok (.rdymatch 1 0xC583) ∧
  decode 0x700008000#36 = .ok (.decconv 0x80 0x00) ∧
  decode 0x80000FFFF#36 = .ok (.encconv 0xFFFF) ∧
  decode 0x900008000#36 = .ok (.tovolt 0x8000)

/-- Every command, with every value of every operand, survives encoding and decoding. -/
def Obligations.DecodeOfEncodeIsTheInstruction : Prop :=
  ∀ i : Instr, decode (encode i) = .ok i

/-- Each word has one meaning: a word that decodes is the encoding of what it decodes to. -/
def Obligations.EncodeOfDecodeIsTheWord : Prop :=
  ∀ (c : Command) (i : Instr), decode c = .ok i → encode i = c

/-- The decoder and spec/opcode_table.json say the same of every 36-bit word: it decodes to a command of an operation
exactly when it belongs to that operation's row. -/
def Obligations.DecoderAgreesWithOpcodeTable : Prop :=
  ∀ (c : Command) (m : Mnemonic), (∃ i, decode c = .ok i ∧ i.mnemonic = m) ↔ (opcodeRow m).holds c = true

/-! ## The step (10_state.md R14, 60_exceptions.md R82) -/

/-- When the next command of the host's list decodes, the step is that command's meaning on the state without it. The
list is the model's (log 1). -/
def Obligations.StepRunsTheDecodedCommand : Prop :=
  ∀ (s : State) (c : Command) (rest : List HostEvent) (i : Instr),
    s.pending = .command c :: rest → decode c = .ok i → step s = exec i { s with pending := rest }

/-- R77: an illegal command presented to an unfaulted block records ILLEGAL_COMMAND, answers it, and does nothing else.
Illegality is stated bit by bit, not through the decoder. -/
def Obligations.IllegalCommandRecordsItsFault : Prop :=
  ∀ (s : State) (c : Command) (rest : List HostEvent),
    s.pending = .command c :: rest → s.fault.flt = false →
    ((c.extractLsb' 32 4).toNat = 0 ∨ 10 ≤ (c.extractLsb' 32 4).toNat ∨
      c.extractLsb' 0 32 &&& reservedOperandBits (c.extractLsb' 32 4) ≠ 0#32) →
    step s = .next { s with
      pending := rest
      fault := { flt := true, fcode := 0x1#4, finfo := 0x0#4 }
      resp := some { r := 0#32, f := true, fc := 0x1#4 } }

/-- R75: a faulted block answers every command, legal or not, with its record and changes no state; a step leaves the
faulted state only where reset is what is presented. -/
def Obligations.FaultedBlockExecutesNothing : Prop :=
  (∀ (s : State) (c : Command) (rest : List HostEvent),
    s.pending = .command c :: rest → s.fault.flt = true →
    step s = .next { s with
      pending := rest
      resp := some { r := s.fault.finfo.setWidth 32, f := true, fc := s.fault.fcode } }) ∧
  (∀ s t : State, s.fault.flt = true → step s = .next t → t.fault.flt = false → s.pending.head? = some .reset)

/-- The meaning of every command on a faulted block: the recorded fault is the answer and no state changes. -/
def Obligations.EveryMeaningAnswersTheRecordWhenFaulted : Prop :=
  ∀ (i : Instr) (s : State), s.fault.flt = true →
    exec i s = .next { s with resp := some { r := s.fault.finfo.setWidth 32, f := true, fc := s.fault.fcode } }

/-- Reset leaves CFG_VALID = 0 and FLT = FCODE = FINFO = 0, in `State.reset` and in the state after a presented reset;
the rest of the host's list stays (log 2). -/
def Obligations.ResetClearsValidAndFaultRecord : Prop :=
  (State.reset.cfgValid = false ∧ State.reset.fault = { flt := false, fcode := 0x0#4, finfo := 0x0#4 }) ∧
  ∀ (s : State) (rest : List HostEvent), s.pending = .reset :: rest →
    ∃ t, step s = .next t ∧ t.cfgValid = false ∧ t.fault = { flt := false, fcode := 0x0#4, finfo := 0x0#4 } ∧
      t.pending = rest

/-- The model's choice (log 3): while nothing is presented, nothing happens. -/
def Obligations.NothingPresentedChangesNothing : Prop :=
  ∀ s : State, s.pending = [] → step s = .next s

/-- The model's reading, no rule of the spec: every state, reachable or not, has a next state. That a fault of the block is
a next state and no step stops is log 8 (DEDUCED from R74 and R75); that an empty host list has a next state is log 3
(DESIGN CHOICE); the list and the reset entry in it are log 1 and log 2 (DESIGN CHOICE). What the spec gives is that every
36-bit word is a legal or an illegal command and that both are answered. -/
def Obligations.EveryStepAnswersANextState : Prop :=
  ∀ s : State, ∃ t, step s = .next t

/-- The model's own list, no rule of the spec: after `k` steps its first `k` entries are gone. R14 and R35 order commands
only. That the list stands in State is log 1, that a reset is an entry of it, takes one step and leaves the rest is log 2,
that a run goes on past its end is log 3 (each DESIGN CHOICE), and that a faulting command's step answers a next state too
is log 8 (DEDUCED). -/
def Obligations.CommandsAreTakenInOrderOnePerStep : Prop :=
  ∀ (k : Nat) (s : State), ∃ t, Sys2Proof.core.run k s = .next t ∧ t.pending = s.pending.drop k

/-! ## The configuration codec (40_config_codec.md) -/

/-- R56 and R80: the encoding of LOADCFG, its three faults in the order of the rule, its effect, and its corner case: FS = 0
always faults, because FS_OF_GAIN never gives 0 (D9). -/
def Obligations.LoadcfgChecksThenLoadsEveryField : Prop :=
  ∀ (fs : Half) (asel : BitVec 2) (g dr : BitVec 3) (cm cp cl : BitVec 1) (cq : BitVec 2) (s : State),
    decode ((0x1#4 ++ fs ++ 0b00#2 ++ asel ++ g ++ 0b0#1 ++ dr ++ cm ++ cp ++ cl ++ cq).cast (by rfl))
      = .ok (.loadcfg fs asel g dr cm cp cl cq) ∧
    (s.fault.flt = false →
      (s.cfgValid = true →
        exec (.loadcfg fs asel g dr cm cp cl cq) s = .next { s with
          fault := { flt := true, fcode := 0x4#4, finfo := 0x0#4 }
          resp := some { r := 0#32, f := true, fc := 0x4#4 } }) ∧
      (s.cfgValid = false → 6 ≤ g.toNat →
        exec (.loadcfg fs asel g dr cm cp cl cq) s = .next { s with
          fault := { flt := true, fcode := 0x2#4, finfo := 0x1#4 }
          resp := some { r := 1#32, f := true, fc := 0x2#4 } }) ∧
      (s.cfgValid = false → g.toNat < 6 → fs ≠ Config.fsOfGain g →
        exec (.loadcfg fs asel g dr cm cp cl cq) s = .next { s with
          fault := { flt := true, fcode := 0x2#4, finfo := 0x2#4 }
          resp := some { r := 2#32, f := true, fc := 0x2#4 } }) ∧
      (s.cfgValid = false → g.toNat < 6 → fs = Config.fsOfGain g →
        exec (.loadcfg fs asel g dr cm cp cl cq) s = .next { s with
          cfgValid := true
          cfg := { addrSel := asel, gain := g, rate := dr, compMode := cm, compPol := cp, compLat := cl, compQue := cq,
                   fsMv := fs }
          resp := some { r := 0#32, f := false, fc := 0x0#4 } }) ∧
      (fs = 0#16 →
        ∃ t, exec (.loadcfg fs asel g dr cm cp cl cq) s = .next t ∧ t.fault.flt = true ∧ t.cfg = s.cfg ∧
          t.cfgValid = s.cfgValid))

/-- R57: the encoding of ENCCFG, NOT_CONFIGURED before CHANNEL_RANGE, and every bit of the ConfigWord: OS = 1, the MUX
code of the channel (4 + channel, R47), GAIN, MODE = 1, RATE and the comparator fields; nothing else changes. -/
def Obligations.EnccfgBuildsTheStartWord : Prop :=
  ∀ (ch : BitVec 8) (s : State),
    decode ((0x2#4 ++ 0#24 ++ ch).cast (by rfl)) = .ok (.enccfg ch) ∧
    (s.fault.flt = false →
      (s.cfgValid = false →
        exec (.enccfg ch) s = .next { s with
          fault := { flt := true, fcode := 0x3#4, finfo := 0x0#4 }
          resp := some { r := 0#32, f := true, fc := 0x3#4 } }) ∧
      (s.cfgValid = true → 4 ≤ ch.toNat →
        exec (.enccfg ch) s = .next { s with
          fault := { flt := true, fcode := 0x2#4, finfo := 0x3#4 }
          resp := some { r := 3#32, f := true, fc := 0x2#4 } }) ∧
      (s.cfgValid = true → ch.toNat < 4 →
        ∃ r : RWord,
          exec (.enccfg ch) s = .next { s with resp := some { r := r, f := false, fc := 0x0#4 } } ∧
          r.extractLsb' 16 16 = 0#16 ∧
          r.extractLsb' 15 1 = 1#1 ∧
          r.extractLsb' 12 3 = BitVec.ofNat 3 (4 + ch.toNat) ∧
          r.extractLsb' 9 3 = s.cfg.gain ∧
          r.extractLsb' 8 1 = 1#1 ∧
          r.extractLsb' 5 3 = s.cfg.rate ∧
          r.extractLsb' 4 1 = s.cfg.compMode ∧
          r.extractLsb' 3 1 = s.cfg.compPol ∧
          r.extractLsb' 2 1 = s.cfg.compLat ∧
          r.extractLsb' 0 2 = s.cfg.compQue))

/-- R58: for one loaded CFG the words of two channels agree in bits 15 and 11:0, and differ in bits 14:12 exactly when the
channels differ. -/
def Obligations.EnccfgWordsDifferInMuxOnly : Prop :=
  ∀ (s : State) (ch ch' : BitVec 8), s.fault.flt = false → s.cfgValid = true → ch.toNat < 4 → ch'.toNat < 4 →
    ∃ r r' : RWord,
      exec (.enccfg ch) s = .next { s with resp := some { r := r, f := false, fc := 0x0#4 } } ∧
      exec (.enccfg ch') s = .next { s with resp := some { r := r', f := false, fc := 0x0#4 } } ∧
      r.extractLsb' 15 1 = r'.extractLsb' 15 1 ∧ r.extractLsb' 0 12 = r'.extractLsb' 0 12 ∧
      (r.extractLsb' 12 3 = r'.extractLsb' 12 3 ↔ ch = ch')

/-- R59: the encoding of CFGBYTES and its effect: R[15:8] = W[15:8] is sent first, R[7:0] = W[7:0] second; it does not
need CFG. -/
def Obligations.CfgbytesSplitsInWireOrder : Prop :=
  ∀ (w : Half) (s : State),
    decode ((0x3#4 ++ 0#16 ++ w).cast (by rfl)) = .ok (.cfgbytes w) ∧
    (s.fault.flt = false →
      ∃ r : RWord,
        exec (.cfgbytes w) s = .next { s with resp := some { r := r, f := false, fc := 0x0#4 } } ∧
        r.extractLsb' 16 16 = 0#16 ∧ r.extractLsb' 8 8 = w.extractLsb' 8 8 ∧ r.extractLsb' 0 8 = w.extractLsb' 0 8 ∧
        r.toNat = w.toNat)

/-- R60: the encoding of CFGWORD and its effect: the first byte received is the more significant one. -/
def Obligations.CfgwordAssemblesBigEndian : Prop :=
  ∀ (b0 b1 : Byte) (s : State),
    decode ((0x4#4 ++ 0#16 ++ b0 ++ b1).cast (by rfl)) = .ok (.cfgword b0 b1) ∧
    (s.fault.flt = false →
      ∃ r : RWord,
        exec (.cfgword b0 b1) s = .next { s with resp := some { r := r, f := false, fc := 0x0#4 } } ∧
        r.toNat = 256 * b0.toNat + b1.toNat)

/-- R61: CFGWORD undoes CFGBYTES. -/
def Obligations.CfgwordUndoesCfgbytes : Prop :=
  ∀ (w : Half) (s : State), s.fault.flt = false →
    ∃ r1 : RWord,
      exec (.cfgbytes w) s = .next { s with resp := some { r := r1, f := false, fc := 0x0#4 } } ∧
      exec (.cfgword (r1.extractLsb' 8 8) (r1.extractLsb' 0 8)) s
        = .next { s with resp := some { r := w.setWidth 32, f := false, fc := 0x0#4 } }

/-- R62: the encoding of DECSTAT and its effect: R[3] is bit 15 and R[2:0] are bits 14:12 of W, so bits 11:0 of W are
ignored; it does not read CFG. -/
def Obligations.DecstatReportsReadyAndMux : Prop :=
  ∀ (w : Half) (s : State),
    decode ((0x5#4 ++ 0#16 ++ w).cast (by rfl)) = .ok (.decstat w) ∧
    (s.fault.flt = false →
      ∃ r : RWord,
        exec (.decstat w) s = .next { s with resp := some { r := r, f := false, fc := 0x0#4 } } ∧
        r.extractLsb' 3 1 = w.extractLsb' 15 1 ∧ r.extractLsb' 0 3 = w.extractLsb' 12 3 ∧ r.extractLsb' 4 28 = 0#28 ∧
        r.toNat = w.toNat / 4096)

/-- R64: the encoding of RDYMATCH, its one fault, and its effect: R is 1 when the ready bit is set AND bits 14:12 are the
MUX code of the channel (4 + channel, R47), and otherwise 0; CFG is not read. -/
def Obligations.RdymatchNeedsReadyAndMatchingMux : Prop :=
  ∀ (ch : BitVec 8) (w : Half) (s : State),
    decode ((0x6#4 ++ 0#8 ++ ch ++ w).cast (by rfl)) = .ok (.rdymatch ch w) ∧
    (s.fault.flt = false →
      (4 ≤ ch.toNat →
        exec (.rdymatch ch w) s = .next { s with
          fault := { flt := true, fcode := 0x2#4, finfo := 0x3#4 }
          resp := some { r := 3#32, f := true, fc := 0x2#4 } }) ∧
      (ch.toNat < 4 → w.extractLsb' 15 1 = 1#1 → (w.extractLsb' 12 3).toNat = 4 + ch.toNat →
        exec (.rdymatch ch w) s = .next { s with resp := some { r := 1#32, f := false, fc := 0x0#4 } }) ∧
      (ch.toNat < 4 → ¬(w.extractLsb' 15 1 = 1#1 ∧ (w.extractLsb' 12 3).toNat = 4 + ch.toNat) →
        exec (.rdymatch ch w) s = .next { s with resp := some { r := 0#32, f := false, fc := 0x0#4 } }))

/-- R63, and the stale-channel test of R64 and R94: the word ENCCFG gave for a channel, read back unchanged, decodes as
ready with that channel's MUX code, matches that channel, and matches no other channel. -/
def Obligations.ReadBackOfEncodedWordMatchesItsChannelOnly : Prop :=
  ∀ (s : State) (ch ch' : BitVec 8), s.fault.flt = false → s.cfgValid = true → ch.toNat < 4 → ch'.toNat < 4 →
    ∃ r1 : RWord,
      exec (.enccfg ch) s = .next { s with resp := some { r := r1, f := false, fc := 0x0#4 } } ∧
      exec (.decstat (r1.extractLsb' 0 16)) s
        = .next { s with resp := some { r := BitVec.ofNat 32 (12 + ch.toNat), f := false, fc := 0x0#4 } } ∧
      exec (.rdymatch ch' (r1.extractLsb' 0 16)) s
        = .next { s with resp := some { r := (if ch' = ch then 1#32 else 0#32), f := false, fc := 0x0#4 } }

/-! ## The conversion codec (41_conversion_codec.md) -/

/-- R65: the encoding of DECCONV and its effect, as the arithmetic of the rule's corner cases: no bit pattern faults. -/
def Obligations.DecconvGivesTheSignedCode : Prop :=
  ∀ (b0 b1 : Byte) (s : State),
    decode ((0x7#4 ++ 0#16 ++ b0 ++ b1).cast (by rfl)) = .ok (.decconv b0 b1) ∧
    (s.fault.flt = false →
      ∃ r : RWord,
        exec (.decconv b0 b1) s = .next { s with resp := some { r := r, f := false, fc := 0x0#4 } } ∧
        r.toInt =
          if 128 ≤ b0.toNat then 256 * (b0.toNat : Int) + b1.toNat - 65536 else 256 * (b0.toNat : Int) + b1.toNat)

/-- R66: the encoding of ENCCONV and its effect: the two bytes, zero-extended. -/
def Obligations.EncconvGivesTheTwoBytes : Prop :=
  ∀ (raw : Half) (s : State),
    decode ((0x8#4 ++ 0#16 ++ raw).cast (by rfl)) = .ok (.encconv raw) ∧
    (s.fault.flt = false →
      ∃ r : RWord,
        exec (.encconv raw) s = .next { s with resp := some { r := r, f := false, fc := 0x0#4 } } ∧
        r.extractLsb' 16 16 = 0#16 ∧ r.extractLsb' 8 8 = raw.extractLsb' 8 8 ∧ r.extractLsb' 0 8 = raw.extractLsb' 0 8 ∧
        (r.toNat : Int) = if raw.toInt < 0 then raw.toInt + 65536 else raw.toInt)

/-- R67: DECCONV is a bijection from byte pairs onto the integers -32768..32767, and ENCCONV undoes it, both ways. -/
def Obligations.ConversionCodecIsABijection : Prop :=
  ∀ s : State, s.fault.flt = false →
    (∀ raw : Half, ∃ r1 : RWord,
      exec (.encconv raw) s = .next { s with resp := some { r := r1, f := false, fc := 0x0#4 } } ∧
      exec (.decconv (r1.extractLsb' 8 8) (r1.extractLsb' 0 8)) s
        = .next { s with resp := some { r := raw.signExtend 32, f := false, fc := 0x0#4 } }) ∧
    (∀ b0 b1 : Byte, ∃ r1 : RWord,
      exec (.decconv b0 b1) s = .next { s with resp := some { r := r1, f := false, fc := 0x0#4 } } ∧
      exec (.encconv (r1.extractLsb' 0 16)) s
        = .next { s with resp := some { r := (b0 ++ b1).setWidth 32, f := false, fc := 0x0#4 } }) ∧
    (∀ n : Int, -32768 ≤ n → n ≤ 32767 → ∃! b : Byte × Byte, ∃ r : RWord,
      exec (.decconv b.1 b.2) s = .next { s with resp := some { r := r, f := false, fc := 0x0#4 } } ∧ r.toInt = n)

/-! ## The voltage scaler (42_voltage_scaler.md) -/

/-- R69: the scaling function is the exact product (no overflow), and the Q17.15 number it stands for is the source's
formula. -/
def Obligations.ScaleIsTheExactProduct : Prop :=
  ∀ raw fs : Half,
    (scale raw fs).toInt = raw.toInt * fs.toNat ∧
    -2147450880 ≤ (scale raw fs).toInt ∧ (scale raw fs).toInt ≤ 2147385345 ∧
    ((scale raw fs).toInt : ℚ) / 2 ^ 15 = (raw.toInt : ℚ) / 32768 * (fs.toNat : ℚ)

/-- R70: the encoding of TOVOLT, its one fault, and its effect: the product with the loaded full scale. -/
def Obligations.TovoltScalesByTheLoadedFullScale : Prop :=
  ∀ (raw : Half) (s : State),
    decode ((0x9#4 ++ 0#16 ++ raw).cast (by rfl)) = .ok (.tovolt raw) ∧
    (s.fault.flt = false →
      (s.cfgValid = false →
        exec (.tovolt raw) s = .next { s with
          fault := { flt := true, fcode := 0x3#4, finfo := 0x0#4 }
          resp := some { r := 0#32, f := true, fc := 0x3#4 } }) ∧
      (s.cfgValid = true →
        ∃ r : RWord,
          exec (.tovolt raw) s = .next { s with resp := some { r := r, f := false, fc := 0x0#4 } } ∧
          r.toInt = raw.toInt * s.cfg.fsMv.toNat))

/-- R72: for a fixed positive full scale the result is strictly increasing in the code, and code -32768 gives the least
and 32767 the greatest value; for full scale 0 it is 0. -/
def Obligations.ScaleIsStrictlyIncreasing : Prop :=
  ∀ fs : Half,
    (0 < fs.toNat → ∀ raw raw' : Half, raw.toInt < raw'.toInt ↔ (scale raw fs).toInt < (scale raw' fs).toInt) ∧
    (∀ raw : Half, (scale 0x8000#16 fs).toInt ≤ (scale raw fs).toInt ∧
      (scale raw fs).toInt ≤ (scale 0x7FFF#16 fs).toInt) ∧
    (∀ raw : Half, scale raw 0#16 = 0#32)

/-- R55 with R65 and R70: the pseudo-instruction VOLTWIRE, run on a loaded block, gives the product of the wire bytes'
signed code and the loaded full scale. -/
def Obligations.VoltwireScalesTheWireBytes : Prop :=
  ∀ (b0 b1 : Byte) (s : State), s.fault.flt = false → s.cfgValid = true →
    ∃ (t u : State) (r1 r2 : RWord),
      exec (pseudoFirst (.voltwire b0 b1)) s = .next t ∧ t.resp = some { r := r1, f := false, fc := 0x0#4 } ∧
      exec (pseudoSecond (.voltwire b0 b1) r1) t = .next u ∧ u.resp = some { r := r2, f := false, fc := 0x0#4 } ∧
      r2.toInt = (b0 ++ b1).toInt * s.cfg.fsMv.toNat

/-! ## State, faults and frames (10_state.md, 60_exceptions.md) -/

/-- R16 and R79: only an accepted LOADCFG sets CFG_VALID, and CFG then holds its operands; only reset clears it; while it is
0 a command that reads CFG (ENCCFG, TOVOLT) faults NOT_CONFIGURED. -/
def Obligations.OnlyLoadcfgSetsValidOnlyResetClearsIt : Prop :=
  (∀ s t : State, step s = .next t → s.cfgValid = false → t.cfgValid = true →
    ∃ c rest fs asel g dr cm cp cl cq, s.pending = .command c :: rest ∧
      decode c = .ok (.loadcfg fs asel g dr cm cp cl cq) ∧ g.toNat < 6 ∧ fs = Config.fsOfGain g ∧
      t.cfg = { addrSel := asel, gain := g, rate := dr, compMode := cm, compPol := cp, compLat := cl, compQue := cq,
                fsMv := fs }) ∧
  (∀ s t : State, step s = .next t → s.cfgValid = true → t.cfgValid = false → s.pending.head? = some .reset) ∧
  (∀ (s : State) (rest : List HostEvent), s.pending = .reset :: rest → ∃ t, step s = .next t ∧ t.cfgValid = false) ∧
  (∀ (s : State) (i : Instr), s.cfgValid = false → s.fault.flt = false →
    i.mnemonic = .ENCCFG ∨ i.mnemonic = .TOVOLT →
    exec i s = .next { s with
      fault := { flt := true, fcode := 0x3#4, finfo := 0x0#4 }
      resp := some { r := 0#32, f := true, fc := 0x3#4 } })

/-- R17: while CFG_VALID = 1 no step but a reset changes CFG, and a second LOADCFG faults with CONFIG_RELOADED and leaves
CFG unchanged. -/
def Obligations.LoadedConfigurationIsReadOnly : Prop :=
  (∀ s t : State, s.cfgValid = true → s.pending.head? ≠ some .reset → step s = .next t →
    t.cfg = s.cfg ∧ t.cfgValid = true) ∧
  (∀ (s : State) (fs : Half) (asel : BitVec 2) (g dr : BitVec 3) (cm cp cl : BitVec 1) (cq : BitVec 2),
    s.cfgValid = true → s.fault.flt = false →
    exec (.loadcfg fs asel g dr cm cp cl cq) s = .next { s with
      fault := { flt := true, fcode := 0x4#4, finfo := 0x0#4 }
      resp := some { r := 0#32, f := true, fc := 0x4#4 } })

/-- R19: only the first fault writes the record and only reset clears it; without a fault FCODE and FINFO stay 0. -/
def Obligations.FirstFaultRecordIsKeptUntilReset : Prop :=
  (∀ s t : State, s.fault.flt = true → s.pending.head? ≠ some .reset → step s = .next t → t.fault = s.fault) ∧
  (∀ s t : State, (s.fault.flt = false → s.fault.fcode = 0x0#4 ∧ s.fault.finfo = 0x0#4) → step s = .next t →
    (t.fault.flt = false → t.fault.fcode = 0x0#4 ∧ t.fault.finfo = 0x0#4)) ∧
  (∀ (s : State) (rest : List HostEvent), s.pending = .reset :: rest →
    ∃ t, step s = .next t ∧ t.fault = { flt := false, fcode := 0x0#4, finfo := 0x0#4 })

/-- R74: a command that faults an unfaulted block is answered from the record it wrote, and changes nothing else: no CFG
field, no CFG_VALID, no partial effect. -/
def Obligations.FaultIsPreciseAndAnsweredFromTheRecord : Prop :=
  ∀ (s t : State) (c : Command) (rest : List HostEvent),
    s.pending = .command c :: rest → s.fault.flt = false → step s = .next t → t.fault.flt = true →
    t = { s with
      pending := rest
      fault := t.fault
      resp := some { r := t.fault.finfo.setWidth 32, f := true, fc := t.fault.fcode } }

/-- R76: the fault a command records on an unfaulted block is a row of the table, with the cause that row names and
raised by the operation it names. -/
def Obligations.RecordedFaultHasItsListedCause : Prop :=
  ∀ (s t : State) (c : Command) (rest : List HostEvent),
    s.pending = .command c :: rest → s.fault.flt = false → step s = .next t → t.fault.flt = true →
    (legalCommand c = false ∧ t.fault.fcode = 0x1#4 ∧ t.fault.finfo = 0x0#4) ∨
    (∃ fs asel g dr cm cp cl cq, decode c = .ok (.loadcfg fs asel g dr cm cp cl cq) ∧
      ((g.toNat = 6 ∨ g.toNat = 7) ∧ t.fault.fcode = 0x2#4 ∧ t.fault.finfo = 0x1#4 ∨
       fs ≠ Config.fsOfGain g ∧ t.fault.fcode = 0x2#4 ∧ t.fault.finfo = 0x2#4 ∨
       s.cfgValid = true ∧ t.fault.fcode = 0x4#4 ∧ t.fault.finfo = 0x0#4)) ∨
    (∃ ch, 4 ≤ ch.toNat ∧ (decode c = .ok (.enccfg ch) ∨ ∃ w, decode c = .ok (.rdymatch ch w)) ∧
      t.fault.fcode = 0x2#4 ∧ t.fault.finfo = 0x3#4) ∨
    (s.cfgValid = false ∧ ((∃ ch, decode c = .ok (.enccfg ch)) ∨ ∃ raw, decode c = .ok (.tovolt raw)) ∧
      t.fault.fcode = 0x3#4 ∧ t.fault.finfo = 0x0#4)

/-- The frame of the commands: none touches the host's list; only LOADCFG writes CFG or CFG_VALID; CFGBYTES, CFGWORD,
DECSTAT, DECCONV and ENCCONV never write the fault record, and no command writes a record that stands. -/
def Obligations.CommandsWriteOnlyWhatTheyName : Prop :=
  ∀ (i : Instr) (s t : State), exec i s = .next t →
    t.pending = s.pending ∧
    (i.mnemonic ≠ .LOADCFG → t.cfg = s.cfg ∧ t.cfgValid = s.cfgValid) ∧
    (i.mnemonic = .CFGBYTES ∨ i.mnemonic = .CFGWORD ∨ i.mnemonic = .DECSTAT ∨ i.mnemonic = .DECCONV ∨
      i.mnemonic = .ENCCONV → t.fault = s.fault) ∧
    (s.fault.flt = true → t.fault = s.fault) ∧
    (t.fault.flt = s.fault.flt → t.fault = s.fault)

/-- R39, for a command at the head of the model's list (log 1): the format of every command's response: it completes
with F = 0 and FC = 0 exactly when the block is not faulted after it, and otherwise shows F = 1, the recorded code and
the recorded detail. -/
def Obligations.EveryCommandIsAnsweredInTheResponseFormat : Prop :=
  ∀ (s : State) (c : Command) (rest : List HostEvent), s.pending = .command c :: rest →
    ∃ (t : State) (r : Response), step s = .next t ∧ t.resp = some r ∧ r.f = t.fault.flt ∧
      (t.fault.flt = false → r.fc = 0x0#4) ∧
      (t.fault.flt = true → r.fc = t.fault.fcode ∧ r.r = t.fault.finfo.setWidth 32)

/-- R21: no command reads a previous response: presented with a command, a block answers the same whatever it answered
last. -/
def Obligations.NoCommandReadsAPreviousResponse : Prop :=
  ∀ (s : State) (c : Command) (rest : List HostEvent) (old : Option Response), s.pending = .command c :: rest →
    step { s with resp := old } = step s

/-- R91: CFGBYTES, CFGWORD, DECSTAT, RDYMATCH, DECCONV and ENCCONV do not read CFG or CFG_VALID: with any other
configuration they do the same and leave that configuration as it was. -/
def Obligations.SixCommandsDoNotReadTheConfiguration : Prop :=
  ∀ (i : Instr) (s t : State) (c : Cfg) (v : Bool),
    i.mnemonic = .CFGBYTES ∨ i.mnemonic = .CFGWORD ∨ i.mnemonic = .DECSTAT ∨ i.mnemonic = .RDYMATCH ∨
      i.mnemonic = .DECCONV ∨ i.mnemonic = .ENCCONV →
    exec i s = .next t → exec i { s with cfg := c, cfgValid := v } = .next { t with cfg := c, cfgValid := v }

/-- R15's table: no command reads ADDR_SEL. Two blocks that differ only in it answer alike and still differ in nothing
else. That every step answers a next state is the model's: log 8 (DEDUCED), and log 2 and log 3 (DESIGN CHOICE) where a
reset or nothing is presented. -/
def Obligations.AddressSelectionIsNeverRead : Prop :=
  ∀ (s : State) (a : BitVec 2), ∃ t u : State,
    step s = .next t ∧ step { s with cfg := { s.cfg with addrSel := a } } = .next u ∧
    u.resp = t.resp ∧ u.fault = t.fault ∧ u.cfgValid = t.cfgValid ∧ u.pending = t.pending ∧
    u.cfg = { t.cfg with addrSel := u.cfg.addrSel }

/-! ## Whole-machine claims -/

/-- R16's promise that CFG is never read while CFG_VALID = 0, over runs of any length and any commands and resets: two
blocks that differ only in what an unloaded CFG holds (so in the zeros of log 4) run alike, and once CFG is loaded they are
equal. That a run of every length exists is the model's: log 8 (DEDUCED), and log 1, log 2 and log 3 (DESIGN CHOICE) for the
list it takes, the resets in it and its end. -/
def Obligations.UnloadedConfigurationIsNeverObserved : Prop :=
  ∀ (k : Nat) (s : State) (c : Cfg), s.cfgValid = false →
    ∃ t u : State, Sys2Proof.core.run k s = .next t ∧ Sys2Proof.core.run k { s with cfg := c } = .next u ∧
      u = { t with cfg := u.cfg } ∧ (t.cfgValid = true → u = t)

/-- R18, R19, R39, R75 and R76 as one invariant of the machine, kept by every step from every state that meets it.
A step with nothing presented is the model's (log 3), and so is keeping the last response (log 5). -/
def Obligations.EveryStepKeepsTheInvariant : Prop :=
  ∀ s t : State, s.Inv → step s = .next t → t.Inv

/-- The state after reset meets the invariant (no response held: log 5). -/
def Obligations.ResetMeetsTheInvariant : Prop :=
  State.reset.Inv

/-- R75 over runs: without a reset, a block that is faulted stays faulted with the same record and the same configuration,
however many steps are taken. Past the end of the host's list, and in that every step answers a next state, this rests on
the model's choices (log 3, DESIGN CHOICE; log 8, DEDUCED). -/
def Obligations.FaultedRunStaysFaulted : Prop :=
  ∀ (k : Nat) (s : State), s.fault.flt = true → .reset ∉ s.pending →
    ∃ t, Sys2Proof.core.run k s = .next t ∧ t.fault = s.fault ∧ t.cfg = s.cfg ∧ t.cfgValid = s.cfgValid

/-- R75, R83 and R91 for every host program: on an unfaulted block the commands of a program all complete, with no state
of the run faulted, exactly when the program keeps the boot order with operands in range. The list the program stands in is
the model's (log 1); a faulted run goes on but has failed (log 8). -/
def Obligations.ProgramsSucceedExactlyWhenBootOrderIsKept : Prop :=
  ∀ (s : State) (prog : List Instr), s.fault.flt = false →
    s.pending = prog.map (fun i => HostEvent.command (encode i)) →
    ((∃ t, succeeds prog.length s t) ↔ safeProgram s.cfgValid prog = true)

/-! ## The device's register map (20_memory.md) -/

/-- R25, R26 and R59: the register write a host makes with CFGBYTES' result goes to the configuration register, as its
pointer byte 0x01 and then the two bytes of R in wire order; the conversion register is read-only, so no value makes a write
payload for it. -/
def Obligations.CfgbytesResultIsTheConfigurationWritePayload : Prop :=
  ∀ (w : Half) (s : State),
    (s.fault.flt = false → ∃ r : RWord,
      exec (.cfgbytes w) s = .next { s with resp := some { r := r, f := false, fc := 0x0#4 } } ∧
      wirePayload .configuration w = some [0x01#8, r.extractLsb' 8 8, r.extractLsb' 0 8]) ∧
    wirePayload .conversion w = none
end

