-- ==== Sys2Proof/Laws/Operands.lean ====
section
/-! SUPPORT. What the operand forms and data encodings give. -/

namespace Sys2Proof.Machine

/-- FS_OF_GAIN gives no zero (D9). -/
theorem fsOfGain_ne_zero (g : BitVec 3) : Config.fsOfGain g ≠ 0#16 := by
  intro h
  have hlt := (Config.fsOfGainLessOne g).isLt
  have hn := congrArg BitVec.toNat h
  simp [Config.fsOfGain] at hn
  omega

theorem channelOf_of_lt {ch : BitVec 8} (h : ch.toNat < 4) : channelOf ch = some ⟨ch.toNat, h⟩ := by
  simp [channelOf, h]

theorem channelOf_of_le {ch : BitVec 8} (h : 4 ≤ ch.toNat) : channelOf ch = none := by
  simp [channelOf, Nat.not_lt.mpr h]

theorem channelOf_eq_some {ch : BitVec 8} {c : Fin 4} (h : channelOf ch = some c) : ch.toNat = c.val := by
  unfold channelOf at h
  split at h
  · cases h; rfl
  · cases h

theorem channelOf_eq_none {ch : BitVec 8} (h : channelOf ch = none) : 4 ≤ ch.toNat := by
  unfold channelOf at h
  split at h
  · cases h
  · omega

/-- The MUX codes are 4 plus the channel, so the map is injective (R47). -/
@[simp] theorem muxOfChannel_toNat (c : Fin 4) : (muxOfChannel c).toNat = 4 + c.val := by
  revert c
  decide

/-- A bit of a word assembled from two bytes (R30). -/
theorem be16_getLsbD (b0 b1 : Byte) (k : Nat) :
    (be16 b0 b1).getLsbD k = if k < 8 then b1.getLsbD k else b0.getLsbD (k - 8) := by
  simp only [be16, BitVec.getLsbD_cast, BitVec.getLsbD_append]

@[simp] theorem be16_toNat (b0 b1 : Byte) : (be16 b0 b1).toNat = 256 * b0.toNat + b1.toNat := by
  have h := b1.isLt
  rw [be16, BitVec.toNat_cast, BitVec.toNat_append, ← Nat.shiftLeft_add_eq_or_of_lt h, Nat.shiftLeft_eq]
  omega

@[simp] theorem firstByte_toNat (w : Half) : (firstByte w).toNat = w.toNat / 256 := by
  have h := w.isLt
  simp only [firstByte, BitVec.extractLsb'_toNat, Nat.shiftRight_eq_div_pow]
  omega

@[simp] theorem secondByte_toNat (w : Half) : (secondByte w).toNat = w.toNat % 256 := by
  simp [secondByte]

/-- The two wire bytes of a word, put together again, are the word (R9). -/
@[simp] theorem be16_firstByte_secondByte (w : Half) : be16 (firstByte w) (secondByte w) = w := by
  apply BitVec.eq_of_toNat_eq
  simp only [be16_toNat, firstByte_toNat, secondByte_toNat]
  omega

@[simp] theorem firstByte_be16 (b0 b1 : Byte) : firstByte (be16 b0 b1) = b0 := by
  have h := b1.isLt
  apply BitVec.eq_of_toNat_eq
  simp only [be16_toNat, firstByte_toNat]
  omega

@[simp] theorem secondByte_be16 (b0 b1 : Byte) : secondByte (be16 b0 b1) = b1 := by
  have h := b1.isLt
  apply BitVec.eq_of_toNat_eq
  simp only [be16_toNat, secondByte_toNat]
  omega

@[simp] theorem zext32_toNat (w : Half) : (zext32 w).toNat = w.toNat := by
  simp only [zext32, BitVec.toNat_setWidth]
  exact Nat.mod_eq_of_lt (Nat.lt_trans w.isLt (by decide))

theorem gainReserved_eq_true {g : BitVec 3} : gainReserved g = true ↔ 6 ≤ g.toNat := by
  simp [gainReserved]

theorem gainReserved_eq_false {g : BitVec 3} : gainReserved g = false ↔ g.toNat < 6 := by
  simp [gainReserved]

end Sys2Proof.Machine
end

