-- ==== Sys2Proof/Laws/State.lean ====
section
/-! SUPPORT. One lemma per field per update of State. -/

namespace Sys2Proof.Machine

variable (s : State) (r : Option Response) (fr : FaultRecord) (c : Cfg) (p : List HostEvent)

@[simp] theorem State.setResp_cfgValid : (s.setResp r).cfgValid = s.cfgValid := rfl
@[simp] theorem State.setResp_cfg : (s.setResp r).cfg = s.cfg := rfl
@[simp] theorem State.setResp_fault : (s.setResp r).fault = s.fault := rfl
@[simp] theorem State.setResp_resp : (s.setResp r).resp = r := rfl
@[simp] theorem State.setResp_pending : (s.setResp r).pending = s.pending := rfl

@[simp] theorem State.setFault_cfgValid : (s.setFault fr).cfgValid = s.cfgValid := rfl
@[simp] theorem State.setFault_cfg : (s.setFault fr).cfg = s.cfg := rfl
@[simp] theorem State.setFault_fault : (s.setFault fr).fault = fr := rfl
@[simp] theorem State.setFault_resp : (s.setFault fr).resp = s.resp := rfl
@[simp] theorem State.setFault_pending : (s.setFault fr).pending = s.pending := rfl

@[simp] theorem State.setCfg_cfgValid : (s.setCfg c).cfgValid = true := rfl
@[simp] theorem State.setCfg_cfg : (s.setCfg c).cfg = c := rfl
@[simp] theorem State.setCfg_fault : (s.setCfg c).fault = s.fault := rfl
@[simp] theorem State.setCfg_resp : (s.setCfg c).resp = s.resp := rfl
@[simp] theorem State.setCfg_pending : (s.setCfg c).pending = s.pending := rfl

@[simp] theorem State.setPending_cfgValid : (s.setPending p).cfgValid = s.cfgValid := rfl
@[simp] theorem State.setPending_cfg : (s.setPending p).cfg = s.cfg := rfl
@[simp] theorem State.setPending_fault : (s.setPending p).fault = s.fault := rfl
@[simp] theorem State.setPending_resp : (s.setPending p).resp = s.resp := rfl
@[simp] theorem State.setPending_pending : (s.setPending p).pending = p := rfl

end Sys2Proof.Machine
end

