-- ==== Sys2Proof/Laws/Ops.lean ====
section
/-! SUPPORT. What each shared operation does, once. -/

namespace Sys2Proof.Machine

variable (s : State)

theorem complete_eq (r : RWord) : complete r s = { s with resp := some { r := r, f := false, fc := 0x0#4 } } := rfl

theorem respondFault_eq :
    respondFault s = { s with resp := some { r := s.fault.finfo.setWidth 32, f := true, fc := s.fault.fcode } } := rfl

/-- Taking the first fault (R74): the record, the answer from it, and nothing else. -/
theorem raiseFault_of_unfaulted (c : FaultCause) (h : s.fault.flt = false) :
    raiseFault c s = { s with
      fault := { flt := true, fcode := faultCode c, finfo := faultInfo c }
      resp := some { r := (faultInfo c).setWidth 32, f := true, fc := faultCode c } } := by
  simp [raiseFault, recordFault, respondFault, State.setResp, State.setFault, h]

/-- A record that stands is not written again (R19). -/
theorem raiseFault_of_faulted (c : FaultCause) (h : s.fault.flt = true) : raiseFault c s = respondFault s := by
  simp [raiseFault, recordFault, h]

theorem unlessFaulted_of_faulted (body : State → State) (h : s.fault.flt = true) :
    unlessFaulted body s = respondFault s := by
  simp [unlessFaulted, h]

theorem unlessFaulted_of_unfaulted (body : State → State) (h : s.fault.flt = false) :
    unlessFaulted body s = body s := by
  simp [unlessFaulted, h]

theorem whenConfigured_of_valid (body : State → State) (h : s.cfgValid = true) : whenConfigured body s = body s := by
  simp [whenConfigured, h]

theorem whenConfigured_of_invalid (body : State → State) (h : s.cfgValid = false) :
    whenConfigured body s = raiseFault .notConfigured s := by
  simp [whenConfigured, h]

theorem withChannel_of_lt {ch : BitVec 8} (body : Fin 4 → State → State) (h : ch.toNat < 4) :
    withChannel ch body s = body ⟨ch.toNat, h⟩ s := by
  simp [withChannel, channelOf_of_lt h]

theorem withChannel_of_le {ch : BitVec 8} (body : Fin 4 → State → State) (h : 4 ≤ ch.toNat) :
    withChannel ch body s = raiseFault .channelRange s := by
  simp [withChannel, channelOf_of_le h]

theorem resetBlock_eq : resetBlock s = { State.reset with pending := s.pending } := rfl

end Sys2Proof.Machine
end

