-- ==== Sys2Proof/Laws/PerInstr.lean ====
section
/-! SUPPORT. Facts about every command as syntax, one lemma per constructor. Family EncodesIntoItsRow: the encoding of a
command belongs to its own row of spec/opcode_table.json. -/

namespace Sys2Proof.Laws

/-- The encoding of `i` has the OP and the zero reserved bits of its row. -/
def EncodesIntoItsRow.Statement (i : Instr) : Prop := (opcodeRow i.mnemonic).holds (encode i) = true

/-- A row holds of a word if it does bit by bit. -/
theorem holds_of_bits {row : OpcodeRow} {w : Command}
    (h : ∀ k, k < 36 → (w.getLsbD k && row.mask.getLsbD k) = row.pattern.getLsbD k) : row.holds w = true := by
  have : w &&& row.mask = row.pattern := by
    apply BitVec.eq_of_getLsbD_eq
    intro k hk
    simpa using h k hk
  simp [OpcodeRow.holds, this]

theorem EncodesIntoItsRow.loadcfg (fs : Half) (asel : BitVec 2) (g dr : BitVec 3) (cm cp cl : BitVec 1) (cq : BitVec 2) :
    EncodesIntoItsRow.Statement (.loadcfg fs asel g dr cm cp cl cq) := by
  refine holds_of_bits fun k hk => ?_
  simp only [encode, Instr.mnemonic, opcodeRow, BitVec.getLsbD_cast, BitVec.getLsbD_append]
  interval_cases k <;> simp

theorem EncodesIntoItsRow.enccfg (ch : BitVec 8) : EncodesIntoItsRow.Statement (.enccfg ch) := by
  refine holds_of_bits fun k hk => ?_
  simp only [encode, Instr.mnemonic, opcodeRow, BitVec.getLsbD_cast, BitVec.getLsbD_append]
  interval_cases k <;> simp

theorem EncodesIntoItsRow.cfgbytes (w : Half) : EncodesIntoItsRow.Statement (.cfgbytes w) := by
  refine holds_of_bits fun k hk => ?_
  simp only [encode, Instr.mnemonic, opcodeRow, BitVec.getLsbD_cast, BitVec.getLsbD_append]
  interval_cases k <;> simp

theorem EncodesIntoItsRow.cfgword (b0 b1 : Byte) : EncodesIntoItsRow.Statement (.cfgword b0 b1) := by
  refine holds_of_bits fun k hk => ?_
  simp only [encode, Instr.mnemonic, opcodeRow, BitVec.getLsbD_cast, BitVec.getLsbD_append]
  interval_cases k <;> simp

theorem EncodesIntoItsRow.decstat (w : Half) : EncodesIntoItsRow.Statement (.decstat w) := by
  refine holds_of_bits fun k hk => ?_
  simp only [encode, Instr.mnemonic, opcodeRow, BitVec.getLsbD_cast, BitVec.getLsbD_append]
  interval_cases k <;> simp

theorem EncodesIntoItsRow.rdymatch (ch : BitVec 8) (w : Half) : EncodesIntoItsRow.Statement (.rdymatch ch w) := by
  refine holds_of_bits fun k hk => ?_
  simp only [encode, Instr.mnemonic, opcodeRow, BitVec.getLsbD_cast, BitVec.getLsbD_append]
  interval_cases k <;> simp

theorem EncodesIntoItsRow.decconv (b0 b1 : Byte) : EncodesIntoItsRow.Statement (.decconv b0 b1) := by
  refine holds_of_bits fun k hk => ?_
  simp only [encode, Instr.mnemonic, opcodeRow, BitVec.getLsbD_cast, BitVec.getLsbD_append]
  interval_cases k <;> simp

theorem EncodesIntoItsRow.encconv (raw : Half) : EncodesIntoItsRow.Statement (.encconv raw) := by
  refine holds_of_bits fun k hk => ?_
  simp only [encode, Instr.mnemonic, opcodeRow, BitVec.getLsbD_cast, BitVec.getLsbD_append]
  interval_cases k <;> simp

theorem EncodesIntoItsRow.tovolt (raw : Half) : EncodesIntoItsRow.Statement (.tovolt raw) := by
  refine holds_of_bits fun k hk => ?_
  simp only [encode, Instr.mnemonic, opcodeRow, BitVec.getLsbD_cast, BitVec.getLsbD_append]
  interval_cases k <;> simp

end Sys2Proof.Laws
end

