-- ==== Sys2Proof/Laws/Step.lean ====
section
/-! SUPPORT. Everything a meaning and a step can do, said once: a faulted block answers its record, and an unfaulted one
raises a fault, completes, or loads CFG. -/

namespace Sys2Proof.Machine

/-- The ways a command ends on an unfaulted block. -/
def CommandEnds (i : Instr) (s t : State) : Prop :=
  (∃ c, t = raiseFault c s) ∨ (∃ r, t = complete r s) ∨
    (∃ c : Cfg, i.mnemonic = .LOADCFG ∧ s.cfgValid = false ∧ c.gain.toNat < 6 ∧ c.fsMv = Config.fsOfGain c.gain ∧
      t = complete 0#32 (s.setCfg c))

theorem exec_faulted (i : Instr) (s : State) (h : s.fault.flt = true) : exec i s = .next (respondFault s) := by
  cases i <;>
    simp [exec, execLoadcfg, execEnccfg, execCfgbytes, execCfgword, execDecstat, execRdymatch, execDecconv, execEncconv,
      execTovolt, unlessFaulted, h]

theorem withChannel_cases (ch : BitVec 8) (r : Fin 4 → State → RWord) (s : State) :
    (∃ c, withChannel ch (fun k s => complete (r k s) s) s = raiseFault c s) ∨
      ∃ r', withChannel ch (fun k s => complete (r k s) s) s = complete r' s := by
  unfold withChannel
  split
  · exact .inr ⟨_, rfl⟩
  · exact .inl ⟨_, rfl⟩

theorem whenConfigured_cases (body : State → State) (s : State)
    (h : (∃ c, body s = raiseFault c s) ∨ ∃ r, body s = complete r s) :
    (∃ c, whenConfigured body s = raiseFault c s) ∨ ∃ r, whenConfigured body s = complete r s := by
  unfold whenConfigured
  split
  · exact h
  · exact .inl ⟨_, rfl⟩

theorem execLoadcfg_cases (fs : Half) (asel : BitVec 2) (g dr : BitVec 3) (cm cp cl : BitVec 1) (cq : BitVec 2)
    (s : State) (h : s.fault.flt = false) :
    ∃ t, execLoadcfg fs asel g dr cm cp cl cq s = .next t ∧ CommandEnds (.loadcfg fs asel g dr cm cp cl cq) s t := by
  refine ⟨_, rfl, ?_⟩
  rw [unlessFaulted_of_unfaulted _ _ h]
  split
  · exact .inl ⟨_, rfl⟩
  · rename_i hv
    split
    · exact .inl ⟨_, rfl⟩
    · rename_i hg
      split
      · exact .inl ⟨_, rfl⟩
      · rename_i hf
        refine .inr (.inr ⟨_, rfl, by simpa using hv, ?_, by simpa using hf, rfl⟩)
        exact gainReserved_eq_false.mp (by simpa using hg)

/-- Every meaning on an unfaulted block. -/
theorem exec_unfaulted (i : Instr) (s : State) (h : s.fault.flt = false) :
    ∃ t, exec i s = .next t ∧ CommandEnds i s t := by
  have lift : ∀ t : State, ((∃ c, t = raiseFault c s) ∨ ∃ r, t = complete r s) → CommandEnds i s t := by
    rintro t (h | h)
    · exact .inl h
    · exact .inr (.inl h)
  cases i with
  | loadcfg fs asel g dr cm cp cl cq => exact execLoadcfg_cases fs asel g dr cm cp cl cq s h
  | enccfg ch =>
    refine ⟨_, rfl, lift _ ?_⟩
    rw [unlessFaulted_of_unfaulted _ _ h]
    exact whenConfigured_cases _ s (withChannel_cases ch _ s)
  | rdymatch ch w =>
    refine ⟨_, rfl, lift _ ?_⟩
    rw [unlessFaulted_of_unfaulted _ _ h]
    exact withChannel_cases ch _ s
  | tovolt raw =>
    refine ⟨_, rfl, lift _ ?_⟩
    rw [unlessFaulted_of_unfaulted _ _ h]
    exact whenConfigured_cases _ s (.inr ⟨_, rfl⟩)
  | cfgbytes w => exact ⟨_, rfl, lift _ (.inr ⟨_, unlessFaulted_of_unfaulted _ _ h⟩)⟩
  | cfgword b0 b1 => exact ⟨_, rfl, lift _ (.inr ⟨_, unlessFaulted_of_unfaulted _ _ h⟩)⟩
  | decstat w => exact ⟨_, rfl, lift _ (.inr ⟨_, unlessFaulted_of_unfaulted _ _ h⟩)⟩
  | decconv b0 b1 => exact ⟨_, rfl, lift _ (.inr ⟨_, unlessFaulted_of_unfaulted _ _ h⟩)⟩
  | encconv raw => exact ⟨_, rfl, lift _ (.inr ⟨_, unlessFaulted_of_unfaulted _ _ h⟩)⟩

/-- Inversion of a meaning. -/
theorem exec_cases {i : Instr} {s t : State} (h : exec i s = .next t) :
    (s.fault.flt = true ∧ t = respondFault s) ∨ (s.fault.flt = false ∧ CommandEnds i s t) := by
  by_cases hf : s.fault.flt = true
  · rw [exec_faulted i s hf] at h
    cases h
    exact .inl ⟨hf, rfl⟩
  · have hf : s.fault.flt = false := by simpa using hf
    obtain ⟨u, hu, he⟩ := exec_unfaulted i s hf
    rw [hu] at h
    cases h
    exact .inr ⟨hf, he⟩

theorem step_idle {s : State} (h : s.pending = []) : step s = .next s := by
  simp [step, h]

theorem step_reset {s : State} {rest : List HostEvent} (h : s.pending = .reset :: rest) :
    step s = .next (State.reset.setPending rest) := by
  simp [step, h, resetBlock]

theorem step_illegal {s : State} {c : Command} {rest : List HostEvent} {e : DecodeReject}
    (h : s.pending = .command c :: rest) (hd : decode c = .error e) :
    step s = .next (illegalCommand (s.setPending rest)) := by
  simp [step, h, hd]

/-- Inversion of a step: nothing presented, a reset, an illegal command, or a command's meaning. -/
theorem step_cases {s t : State} (h : step s = .next t) :
    (s.pending = [] ∧ t = s) ∨
    (∃ rest, s.pending = .reset :: rest ∧ t = State.reset.setPending rest) ∨
    (∃ c rest e, s.pending = .command c :: rest ∧ decode c = .error e ∧ t = illegalCommand (s.setPending rest)) ∨
    (∃ c rest i, s.pending = .command c :: rest ∧ decode c = .ok i ∧ exec i (s.setPending rest) = .next t) := by
  unfold step at h
  split at h
  · cases h
    exact .inl ⟨‹_›, rfl⟩
  · cases h
    exact .inr (.inl ⟨_, ‹_›, rfl⟩)
  · split at h
    · exact .inr (.inr (.inr ⟨_, _, _, ‹_›, ‹_›, h⟩))
    · cases h
      exact .inr (.inr (.inl ⟨_, _, _, ‹_›, ‹_›, rfl⟩))

end Sys2Proof.Machine
end

