-- ==== Sys2Proof/Tests/Slice0.lean ====
section
/-! SUPPORT. The model's own tests. Expected values are those of spec/95_test_vectors.md (the vector is named) or of the
rule named; then one witness for the hypotheses of each statement of Certificates/Slice0/Obligations.lean. -/

namespace Sys2Proof.Tests

open Sys2Proof.Machine

/-! ## Helpers -/

/-- The response a step or a meaning ends with. -/
def respOf (o : Host.Outcome State Fault Refusal) : Option Response :=
  match o with
  | .next t => t.resp
  | .fault _ => none
  | .refused _ => none

/-- The fault record a step or a meaning ends with. -/
def recordOf (o : Host.Outcome State Fault Refusal) : Option FaultRecord :=
  match o with
  | .next t => some t.fault
  | .fault _ => none
  | .refused _ => none

/-- A response that completes. -/
def done (r : RWord) : Option Response := some { r := r, f := false, fc := 0x0#4 }

/-- "loaded T1/g2" of 95_test_vectors.md. -/
def loaded : State :=
  { State.reset with
    cfgValid := true
    cfg := { addrSel := 0, gain := 2, rate := 4, compMode := 0, compPol := 0, compLat := 0, compQue := 3, fsMv := 2048 } }

/-- "loaded T1/g0 (asel=3, rate=7, cm=cp=cl=1, cque=0)" of 95_test_vectors.md. -/
def loadedG0 : State :=
  { State.reset with
    cfgValid := true
    cfg := { addrSel := 3, gain := 0, rate := 7, compMode := 1, compPol := 1, compLat := 1, compQue := 0, fsMv := 6144 } }

/-- The loaded state with the full scale its gain is paired with, whatever FS_OF_GAIN is. -/
def loadedPaired : State := { loaded with cfg := { loaded.cfg with fsMv := Config.fsOfGain 2 } }

/-- "faulted NOT_CONFIGURED" of 95_test_vectors.md. -/
def faulted : State := { State.reset with fault := { flt := true, fcode := 0x3, finfo := 0x0 } }

/-- "faulted CONFIG_INVARIANT/CHANNEL_RANGE" of 95_test_vectors.md. -/
def faultedRange : State := { loaded with fault := { flt := true, fcode := 0x2, finfo := 0x3 } }

/-- A state whose host presents one command. -/
def presenting (s : State) (c : Command) : State := s.setPending [.command c]

/-! ## Decoder: words of 95_test_vectors.md and of the rules' examples -/

theorem test_decode_loadcfg : decode 0x1180030FC = .ok (.loadcfg 6144 3 0 7 1 1 1 0) := by decide
theorem test_decode_enccfg : decode 0x2000000FF = .ok (.enccfg 255) := by decide
theorem test_decode_cfgbytes : decode 0x30000D583 = .ok (.cfgbytes 0xD583) := by decide
theorem test_decode_cfgword : decode 0x400004583 = .ok (.cfgword 0x45 0x83) := by decide
theorem test_decode_decstat : decode 0x50000C583 = .ok (.decstat 0xC583) := by decide
theorem test_decode_rdymatch : decode 0x60003D583 = .ok (.rdymatch 3 0xD583) := by decide
theorem test_decode_decconv : decode 0x700001234 = .ok (.decconv 0x12 0x34) := by decide
theorem test_decode_encconv : decode 0x80000FF00 = .ok (.encconv 0xFF00) := by decide
theorem test_decode_tovolt : decode 0x90000F000 = .ok (.tovolt 0xF000) := by decide

/-- V0.1 to V0.3. -/
theorem test_decode_unassigned :
    decode 0x000000000 = .error (.unassignedOp 0) ∧ decode 0xA00000000 = .error (.unassignedOp 10) ∧
      decode 0xF00000000 = .error (.unassignedOp 15) := by decide

/-- V0.4 to V0.9. -/
theorem test_decode_reserved_bits :
    decode 0x100004000 = .error (.reservedBitSet .LOADCFG) ∧ decode 0x100000100 = .error (.reservedBitSet .LOADCFG) ∧
      decode 0x200000100 = .error (.reservedBitSet .ENCCFG) ∧ decode 0x280000000 = .error (.reservedBitSet .ENCCFG) ∧
      decode 0x300010000 = .error (.reservedBitSet .CFGBYTES) ∧
      decode 0x601000000 = .error (.reservedBitSet .RDYMATCH) := by decide

/-- The example words of R56, R57, R64 and R65. -/
theorem test_encode_examples :
    encode (.loadcfg 2048 0 2 4 0 0 0 3) = 0x108000483 ∧ encode (.enccfg 1) = 0x200000001 ∧
      encode (.rdymatch 1 0xC583) = 0x60001C583 ∧ encode (.decconv 0x80 0x00) = 0x700008000 := by decide

/-! ## WellFormed smoke: each check refuses an ill-formed term -/

theorem test_illegal_op_zero : legalCommand 0x000000000 = false := by decide
theorem test_illegal_op_ten : legalCommand 0xA00000000 = false := by decide
theorem test_illegal_loadcfg_bits :
    legalCommand 0x100004000 = false ∧ legalCommand 0x100008000 = false ∧ legalCommand 0x100000100 = false := by decide
theorem test_illegal_enccfg_bit : legalCommand 0x200000100 = false := by decide
theorem test_illegal_rdymatch_bit : legalCommand 0x601000000 = false := by decide
theorem test_illegal_word_command_bits :
    legalCommand 0x300010000 = false ∧ legalCommand 0x400010000 = false ∧ legalCommand 0x580000000 = false ∧
      legalCommand 0x700010000 = false ∧ legalCommand 0x800010000 = false ∧ legalCommand 0x900010000 = false := by decide
theorem test_legal_examples : legalCommand 0x108000483 = true ∧ legalCommand 0x600FF0000 = true := by decide

theorem test_asm_refuses_operands_that_do_not_fit :
    (Asm.enccfg 256).wellFormed = false ∧ (Asm.cfgbytes 65536).wellFormed = false ∧
      (Asm.cfgword 256 0).wellFormed = false ∧ (Asm.cfgword 0 (-1)).wellFormed = false ∧
      (Asm.decstat (-1)).wellFormed = false ∧ (Asm.rdymatch 256 0).wellFormed = false ∧
      (Asm.rdymatch 0 65536).wellFormed = false ∧ (Asm.decconv 256 0).wellFormed = false ∧
      (Asm.decconv 0 256).wellFormed = false ∧ (Asm.encconv 65536).wellFormed = false ∧
      (Asm.tovolt (-32769)).wellFormed = false := by decide
theorem test_asm_refuses_missing_keyword :
    (Asm.loadcfg [(.asel, 0), (.gain, 2), (.rate, 4), (.cmode, 0), (.cpol, 0), (.clat, 0), (.cque, 3)]).wellFormed
      = false := by decide
theorem test_asm_refuses_repeated_keyword :
    (Asm.loadcfg [(.asel, 0), (.gain, 2), (.rate, 4), (.cmode, 0), (.cpol, 0), (.clat, 0), (.cque, 3), (.fs, 1),
      (.fs, 1)]).wellFormed = false := by decide
theorem test_asm_refuses_wide_gain :
    (Asm.loadcfg [(.asel, 0), (.gain, 8), (.rate, 4), (.cmode, 0), (.cpol, 0), (.clat, 0), (.cque, 3), (.fs, 1)]).wellFormed
      = false := by decide

/-! ## Meanings -/

/-- V1.4, V1.8 (the gain is checked before the full scale), V1.9 and V1.10 (CONFIG_RELOADED before anything else). -/
theorem test_loadcfg_faults :
    respOf (exec (.loadcfg 256 0 6 4 0 0 0 3) State.reset) = some { r := 1, f := true, fc := 0x2 } ∧
      respOf (exec (.loadcfg 0 0 7 4 0 0 0 3) State.reset) = some { r := 1, f := true, fc := 0x2 } ∧
      respOf (exec (.loadcfg 6144 0 0 4 0 0 0 3) loaded) = some { r := 0, f := true, fc := 0x4 } ∧
      respOf (exec (.loadcfg 1 0 7 4 0 0 0 3) loaded) = some { r := 0, f := true, fc := 0x4 } := by decide

/-- V1.1 and V1.6, for an instance whose FS_OF_GAIN(2) is 2048, as T1's is. -/
theorem test_loadcfg_T1 (h : Config.fsOfGain 2#3 = 2048#16) :
    exec (.loadcfg 2048#16 0#2 2#3 4#3 0#1 0#1 0#1 3#2) State.reset = .next { loaded with resp := done 0#32 } ∧
      respOf (exec (.loadcfg 4096#16 0#2 2#3 4#3 0#1 0#1 0#1 3#2) State.reset) = some { r := 2, f := true, fc := 0x2 } := by
  constructor
  · simp [exec, execLoadcfg, unlessFaulted, gainReserved, State.reset, h, complete, State.setCfg, State.setResp, loaded, done]
  · simp [respOf, exec, execLoadcfg, unlessFaulted, gainReserved, State.reset, h, raiseFault, recordFault, respondFault,
      faultCode, faultInfo]

/-- V2.2, V2.9 and V2.10. -/
theorem test_enccfg_words :
    respOf (exec (.enccfg 1) loaded) = done 0xD583 ∧ respOf (exec (.enccfg 0) loadedG0) = done 0xC1FC ∧
      respOf (exec (.enccfg 3) loadedG0) = done 0xF1FC := by decide

/-- V2.5 and V2.8. -/
theorem test_enccfg_faults :
    respOf (exec (.enccfg 4) loaded) = some { r := 3, f := true, fc := 0x2 } ∧
      respOf (exec (.enccfg 9) State.reset) = some { r := 0, f := true, fc := 0x3 } := by decide

/-- V3.6. -/
theorem test_cfgbytes : respOf (exec (.cfgbytes 0x4583) State.reset) = done 0x4583 := by decide

/-- V3.7 and V3.11. -/
theorem test_cfgword :
    respOf (exec (.cfgword 0xC5 0x83) State.reset) = done 0xC583 ∧
      respOf (exec (.cfgword 0x00 0x80) State.reset) = done 0x0080 := by decide

/-- V4.2, V4.8 and V4.9. -/
theorem test_decstat :
    respOf (exec (.decstat 0x4583) State.reset) = done 0x4 ∧ respOf (exec (.decstat 0xDFFF) State.reset) = done 0xD ∧
      respOf (exec (.decstat 0xD000) State.reset) = done 0xD := by decide

/-- E5 and V5.3; not ready (0x5583) and no channel's code (0x8583) of 95_test_vectors.md L2 §5. -/
theorem test_rdymatch :
    respOf (exec (.rdymatch 1 0xC583) State.reset) = done 0 ∧ respOf (exec (.rdymatch 1 0xD583) State.reset) = done 1 ∧
      respOf (exec (.rdymatch 1 0x5583) State.reset) = done 0 ∧ respOf (exec (.rdymatch 0 0x8583) State.reset) = done 0 := by
  decide

/-- V5.1. -/
theorem test_rdymatch_channel_range :
    respOf (exec (.rdymatch 4 0xC583) State.reset) = some { r := 3, f := true, fc := 0x2 } := by decide

/-- V6.4, V6.8 and V6.9. -/
theorem test_decconv :
    respOf (exec (.decconv 0x80 0x00) State.reset) = done 0xFFFF8000 ∧
      respOf (exec (.decconv 0x12 0x34) State.reset) = done 0x1234 ∧
      respOf (exec (.decconv 0xED 0xCC) State.reset) = done 0xFFFFEDCC := by decide

/-- V6.13 and V6.17. -/
theorem test_encconv :
    respOf (exec (.encconv 0xFFFF) State.reset) = done 0xFFFF ∧
      respOf (exec (.encconv 0xEDCC) State.reset) = done 0xEDCC := by decide

/-- V7.1, V7.5 and V7.6. -/
theorem test_tovolt :
    respOf (exec (.tovolt 0x7FFF) loaded) = done 0x03FFF800 ∧ respOf (exec (.tovolt 0xFFFF) loaded) = done 0xFFFFF800 ∧
      respOf (exec (.tovolt 100) State.reset) = some { r := 0, f := true, fc := 0x3 } := by decide

/-- L2 §7: the extremes of the product, and C1's corrected value. -/
theorem test_scale_extremes :
    scale 0x7FFF 65535 = 0x7FFE8001 ∧ scale 0x8000 65535 = 0x80008000 ∧ scale 0x7FFF 12288 = 0x17FFD000 := by decide

/-! ## The step -/

/-- V0.1, V0.6 and V0.10 presented to a fresh block. -/
theorem test_step_illegal :
    respOf (step (presenting State.reset 0x000000000)) = some { r := 0, f := true, fc := 0x1 } ∧
      recordOf (step (presenting State.reset 0x200000100)) = some { flt := true, fcode := 0x1, finfo := 0x0 } ∧
      recordOf (step (presenting State.reset 0x600FF0000)) = some { flt := true, fcode := 0x2, finfo := 0x3 } := by decide

/-- V8.2, V8.4 and V8.7: a faulted block executes nothing, legal or not. -/
theorem test_step_faulted :
    respOf (step (presenting faulted 0x50000C583)) = some { r := 0, f := true, fc := 0x3 } ∧
      respOf (step (presenting faulted 0xF00000000)) = some { r := 0, f := true, fc := 0x3 } ∧
      respOf (step (presenting faultedRange 0x200000000)) = some { r := 3, f := true, fc := 0x2 } := by decide

/-- R90: reset clears the fault; the command after it is answered. -/
theorem test_reset_clears_fault :
    respOf (Sys2Proof.core.run 2 (faulted.setPending [.reset, .command 0x50000C583])) = done 0xC := by decide

/-! ## The host's two names -/

theorem test_decodeTableWord_rows :
    decodeTableWord 40 0x100000000 = some (.loadcfg 0 0 0 0 0 0 0 0) ∧ decodeTableWord 40 0x900000000 = some (.tovolt 0) ∧
      decodeTableWord 40 0x1600000000 = none ∧ decodeTableWord 40 0xA00000000 = none := by decide

theorem test_withFetchWord_runs_first :
    respOf (step (State.reset.withFetchWord 40 0x700008000)) = done 0xFFFF8000 := by decide

/-- A LOADCFG presented first after reset is answered, whatever FS_OF_GAIN is. -/
theorem test_withFetchWord_loadcfg_answers :
    ∃ t, step (State.reset.withFetchWord 40 0x100000000) = .next t ∧ t.pending = [] := by
  obtain ⟨t, ht, -⟩ := exec_unfaulted (.loadcfg 0 0 0 0 0 0 0 0) State.reset rfl
  refine ⟨t, ht, ?_⟩
  rcases exec_cases ht with ⟨h, _⟩ | ⟨_, ⟨d, rfl⟩ | ⟨r, rfl⟩ | ⟨k, _, _, _, _, rfl⟩⟩
  · cases h
  · rw [raiseFault_of_unfaulted _ _ rfl]; rfl
  · rfl
  · rfl

/-! ## Tables and syntax -/

/-- The table of R103. -/
theorem test_poll_intervals :
    [0, 1, 2, 3, 4, 5, 6, 7].map pollIntervalUs = [126000, 63500, 32250, 16625, 8812, 5000, 3105, 2162] := by decide

/-- R26 and R29: the payload of P1 step 3 after pointer byte 0x01. -/
theorem test_wire_payload : wirePayload .configuration 0xC583 = some [0x01, 0xC5, 0x83] := by decide

/-- 20_memory.md R25, row 0b00: "conversion (read-only)". -/
theorem test_conversion_register_is_not_written :
    deviceAccess .conversion = some .readOnly ∧ wirePayload .conversion 0xC583 = none := by decide

/-- Lines of 95_test_vectors.md with their words. -/
theorem test_assemble_lines :
    assembleLine "LOADCFG asel=3, gain=0, rate=7, cmode=1, cpol=1, clat=1, cque=0, fs=6144".toList = some 0x1180030FC ∧
      assembleLine "RDYMATCH 1, 0xC583".toList = some 0x60001C583 ∧
      assembleLine "TOVOLT -32768".toList = some 0x900008000 := by decide

/-- R54: an operand that does not fit is an assembly error; keywords may come in any order. -/
theorem test_assemble_errors_and_order :
    assembleLine "ENCCFG 256".toList = none ∧ assembleLine "NOP 1".toList = none ∧
      assembleLine "LOADCFG fs=2048, gain=2, rate=0b100, cmode=0, cpol=0, clat=0, cque=3, asel=0".toList
        = some 0x108000483 := by decide

/-- R55: VOLTWIRE 0x12, 0x34 is P1's steps 8 and 9. -/
theorem test_voltwire :
    pseudoFirst (.voltwire 0x12 0x34) = .decconv 0x12 0x34 ∧
      pseudoSecond (.voltwire 0x12 0x34) 0x1234 = .tovolt 0x1234 := by decide

/-! ## Witnesses for the statements' hypotheses -/

/-- StepRunsTheDecodedCommand. -/
theorem witness_step_runs :
    (presenting loaded 0x200000001).pending = .command 0x200000001 :: [] ∧ decode 0x200000001 = .ok (.enccfg 1) := by decide

/-- EncodeOfDecodeIsTheWord. -/
theorem witness_decodes : decode 0x600FF0000 = .ok (.rdymatch 255 0) := by decide

/-- IllegalCommandRecordsItsFault: OP 0x0, OP 0xA, and each kind of reserved bit alone. -/
theorem witness_illegal :
    (presenting State.reset 0).fault.flt = false ∧ (BitVec.extractLsb' 32 4 (0x000000000#36)).toNat = 0 ∧
      10 ≤ (BitVec.extractLsb' 32 4 (0xA00000000#36)).toNat ∧
      BitVec.extractLsb' 0 32 (0x100000100#36) &&& reservedOperandBits 1 ≠ 0#32 ∧
      BitVec.extractLsb' 0 32 (0x200000100#36) &&& reservedOperandBits 2 ≠ 0#32 ∧
      BitVec.extractLsb' 0 32 (0x601000000#36) &&& reservedOperandBits 6 ≠ 0#32 ∧
      BitVec.extractLsb' 0 32 (0x900010000#36) &&& reservedOperandBits 9 ≠ 0#32 := by decide

/-- FaultedBlockExecutesNothing (first clause) and EveryMeaningAnswersTheRecordWhenFaulted. -/
theorem witness_faulted :
    (presenting faulted 0xF00000000).pending = .command 0xF00000000 :: [] ∧ (presenting faulted 0).fault.flt = true := by
  decide

/-- FaultedBlockExecutesNothing (second clause): a reset leaves the faulted state. -/
theorem witness_faulted_leaves :
    ∃ s t : State, s.fault.flt = true ∧ step s = .next t ∧ t.fault.flt = false :=
  ⟨faulted.setPending [.reset], State.reset, rfl, rfl, rfl⟩

/-- ResetClearsValidAndFaultRecord, and the reset clauses of R16 and R19. -/
theorem witness_reset_presented : (faulted.setPending [.reset]).pending = .reset :: [] := by decide

/-- NothingPresentedChangesNothing. -/
theorem witness_nothing_presented : State.reset.pending = [] := by decide

/-- LoadcfgChecksThenLoadsEveryField: a witness for each clause, gains 5, 6 and 7 among them. -/
theorem witness_loadcfg_reloaded : loaded.fault.flt = false ∧ loaded.cfgValid = true := by decide
theorem witness_loadcfg_reserved :
    State.reset.fault.flt = false ∧ State.reset.cfgValid = false ∧ 6 ≤ (6 : BitVec 3).toNat ∧ 6 ≤ (7 : BitVec 3).toNat := by
  decide
theorem witness_loadcfg_mismatch :
    State.reset.cfgValid = false ∧ (5 : BitVec 3).toNat < 6 ∧ (0 : Half) ≠ Config.fsOfGain 5 :=
  ⟨rfl, by decide, fun h => fsOfGain_ne_zero 5 h.symm⟩
theorem witness_loadcfg_accepted :
    State.reset.fault.flt = false ∧ State.reset.cfgValid = false ∧ (5 : BitVec 3).toNat < 6 ∧
      Config.fsOfGain 5 = Config.fsOfGain 5 := ⟨rfl, rfl, by decide, rfl⟩

/-- EnccfgBuildsTheStartWord: channels 3 and 4 on a loaded block, and an unloaded block. -/
theorem witness_enccfg :
    loaded.fault.flt = false ∧ loaded.cfgValid = true ∧ (3 : BitVec 8).toNat < 4 ∧ 4 ≤ (4 : BitVec 8).toNat ∧
      State.reset.fault.flt = false ∧ State.reset.cfgValid = false := by decide

/-- EnccfgWordsDifferInMuxOnly and ReadBackOfEncodedWordMatchesItsChannelOnly: equal and different channels. -/
theorem witness_two_channels :
    loaded.fault.flt = false ∧ loaded.cfgValid = true ∧ (0 : BitVec 8).toNat < 4 ∧ (3 : BitVec 8).toNat < 4 ∧
      (0 : BitVec 8) ≠ 3 := by decide

/-- The statements about CFGBYTES (O44 too), CFGWORD, DECSTAT, DECCONV and ENCCONV, and
ConversionCodecIsABijection: an unfaulted block, and the ends of the range of codes. -/
theorem witness_unfaulted :
    State.reset.fault.flt = false ∧ (-32768 : Int) ≤ -32768 ∧ (32767 : Int) ≤ 32767 := by decide

/-- RdymatchNeedsReadyAndMatchingMux: a witness for each clause, channels 3 and 4. -/
theorem witness_rdymatch :
    State.reset.fault.flt = false ∧ 4 ≤ (4 : BitVec 8).toNat ∧ (3 : BitVec 8).toNat < 4 ∧
      (BitVec.extractLsb' 15 1 (0xF583#16) = 1#1 ∧ (BitVec.extractLsb' 12 3 (0xF583#16)).toNat = 4 + (3 : BitVec 8).toNat) ∧
      ¬(BitVec.extractLsb' 15 1 (0x7583#16) = 1#1 ∧ (BitVec.extractLsb' 12 3 (0x7583#16)).toNat = 4 + (3 : BitVec 8).toNat) ∧
      ¬(BitVec.extractLsb' 15 1 (0xE583#16) = 1#1 ∧ (BitVec.extractLsb' 12 3 (0xE583#16)).toNat = 4 + (3 : BitVec 8).toNat) := by
  decide

/-- TovoltScalesByTheLoadedFullScale (both clauses), VoltwireScalesTheWireBytes, ScaleIsStrictlyIncreasing. -/
theorem witness_tovolt :
    State.reset.fault.flt = false ∧ State.reset.cfgValid = false ∧ loaded.fault.flt = false ∧ loaded.cfgValid = true ∧
      0 < (1 : Half).toNat := by decide

/-- The word of a LOADCFG with gain 5 and any full scale decodes to it. -/
theorem decode_loadcfg_gain5 (fs : Half) :
    decode (encode (.loadcfg fs 0 5 0 0 0 0 0)) = .ok (.loadcfg fs 0 5 0 0 0 0 0) := by
  have ho : opField (encode (.loadcfg fs 0 5 0 0 0 0 0)) = 1#4 := by
    apply BitVec.eq_of_getLsbD_eq
    intro k hk
    simp only [opField, encode, BitVec.getLsbD_extractLsb', BitVec.getLsbD_cast, BitVec.getLsbD_append]
    interval_cases k <;> simp
  have hl : ∀ lo n v, (∀ k, k < n → (operandField (encode (.loadcfg fs 0 5 0 0 0 0 0))).getLsbD (lo + k) = v.getLsbD k) →
      (operandField (encode (.loadcfg fs 0 5 0 0 0 0 0))).extractLsb' lo n = v := by
    intro lo n v h
    apply BitVec.eq_of_getLsbD_eq
    intro k hk
    simpa [hk] using h k hk
  simp only [operandField, encode, BitVec.getLsbD_extractLsb', BitVec.getLsbD_cast, BitVec.getLsbD_append] at hl
  simp only [decode, ho]
  rw [operandField, encode, hl 14 2 0, hl 8 1 0, hl 16 16 fs, hl 12 2 0, hl 9 3 5, hl 5 3 0, hl 4 1 0, hl 3 1 0, hl 2 1 0,
    hl 0 2 0]
  · rfl
  all_goals (intro k hk; interval_cases k <;> simp)

/-- OnlyLoadcfgSetsValidOnlyResetClearsIt: a step that sets CFG_VALID, one that clears it, and an ENCCFG and a TOVOLT on an
unloaded block. -/
theorem witness_valid_set : ∃ s t : State, step s = .next t ∧ s.cfgValid = false ∧ t.cfgValid = true := by
  refine ⟨presenting State.reset (encode (.loadcfg (Config.fsOfGain 5) 0 5 0 0 0 0 0)),
    complete 0#32 (State.reset.setCfg
      { addrSel := 0, gain := 5, rate := 0, compMode := 0, compPol := 0, compLat := 0, compQue := 0,
        fsMv := Config.fsOfGain 5 }), ?_, rfl, rfl⟩
  simp only [step, presenting, State.setPending_pending, decode_loadcfg_gain5, exec, execLoadcfg]
  simp [unlessFaulted, gainReserved, State.reset, State.setPending]
theorem witness_valid_cleared :
    ∃ s t : State, step s = .next t ∧ s.cfgValid = true ∧ t.cfgValid = false :=
  ⟨loaded.setPending [.reset], State.reset, rfl, rfl, rfl⟩
theorem witness_cfg_readers :
    State.reset.cfgValid = false ∧ State.reset.fault.flt = false ∧ (Instr.enccfg 0).mnemonic = .ENCCFG ∧
      (Instr.tovolt 0).mnemonic = .TOVOLT := by decide

/-- LoadedConfigurationIsReadOnly. -/
theorem witness_read_only :
    (presenting loaded 0x118000083).cfgValid = true ∧ (presenting loaded 0x118000083).fault.flt = false ∧
      (presenting loaded 0x118000083).pending.head? ≠ some .reset ∧
      recordOf (step (presenting loaded 0x118000083)) = some { flt := true, fcode := 0x4, finfo := 0x0 } := by decide

/-- FirstFaultRecordIsKeptUntilReset: a faulted block with a command presented, and an unfaulted one that completes. -/
theorem witness_record_kept :
    (presenting faultedRange 0).fault.flt = true ∧ (presenting faultedRange 0).pending.head? ≠ some .reset ∧
      recordOf (step (presenting faultedRange 0)) = some faultedRange.fault ∧
      (State.reset.fault.fcode = 0x0#4 ∧ State.reset.fault.finfo = 0x0#4) ∧
      recordOf (step (presenting State.reset 0x50000C583)) = some State.reset.fault := by decide

/-- FaultIsPreciseAndAnsweredFromTheRecord and RecordedFaultHasItsListedCause: a command of each cause. -/
theorem witness_faults :
    recordOf (step (presenting State.reset 0x000000000)) = some { flt := true, fcode := 0x1, finfo := 0x0 } ∧
      recordOf (step (presenting State.reset 0x101000C83)) = some { flt := true, fcode := 0x2, finfo := 0x1 } ∧
      recordOf (step (presenting loaded 0x200000004)) = some { flt := true, fcode := 0x2, finfo := 0x3 } ∧
      recordOf (step (presenting State.reset 0x200000000)) = some { flt := true, fcode := 0x3, finfo := 0x0 } ∧
      recordOf (step (presenting loaded 0x118000083)) = some { flt := true, fcode := 0x4, finfo := 0x0 } := by decide

/-- CommandsWriteOnlyWhatTheyName and SixCommandsDoNotReadTheConfiguration: meanings that answer a next state, on a faulted
and on an unfaulted block. -/
theorem witness_frame :
    respOf (exec (.cfgbytes 0) loaded) = done 0 ∧ (Instr.cfgbytes 0).mnemonic = .CFGBYTES ∧
      (Instr.rdymatch 0 0).mnemonic = .RDYMATCH ∧ respOf (exec (.tovolt 0) loaded) = done 0 ∧
      recordOf (exec (.tovolt 0) faulted) = some faulted.fault ∧ faulted.fault.flt = true := by decide

/-- UnloadedConfigurationIsNeverObserved. -/
theorem witness_unloaded : (presenting State.reset 0x200000000).cfgValid = false := by decide

/-- EveryStepKeepsTheInvariant: a loaded, consistent state with a command presented meets the invariant and steps. -/
theorem witness_invariant :
    (presenting loadedPaired 0x900008000).Inv ∧ ∃ t, step (presenting loadedPaired 0x900008000) = .next t :=
  ⟨⟨fun _ => ⟨by decide, rfl⟩, ⟨fun _ => ⟨rfl, rfl⟩, fun h => by cases h⟩, fun _ h => by cases h⟩, _, rfl⟩

/-- FaultedRunStaysFaulted. -/
theorem witness_faulted_run :
    (presenting faulted 0x108000483).fault.flt = true ∧ .reset ∉ (presenting faulted 0x108000483).pending := by decide

/-- ProgramsSucceedExactlyWhenBootOrderIsKept: P1's order is safe for the full scale paired with its gain, and ENCCFG before
LOADCFG (P3) is not. -/
theorem witness_programs :
    State.reset.fault.flt = false ∧
      safeProgram false [.loadcfg (Config.fsOfGain 2) 0 2 4 0 0 0 3, .enccfg 3, .rdymatch 3 0xF583, .tovolt 4660] = true ∧
      safeProgram false [.decstat 0xC583, .enccfg 0] = false := by
  refine ⟨rfl, ?_, by decide⟩
  simp [safeProgram, commandSafe, validAfter]

end Sys2Proof.Tests
end

/-! ## Shared operations, field by field -/

namespace Sys2Proof.Machine

@[simp] theorem complete_cfgValid (r : RWord) (s : State) : (complete r s).cfgValid = s.cfgValid := rfl
@[simp] theorem complete_cfg (r : RWord) (s : State) : (complete r s).cfg = s.cfg := rfl
@[simp] theorem complete_fault (r : RWord) (s : State) : (complete r s).fault = s.fault := rfl

@[simp] theorem respondFault_cfgValid (s : State) : (respondFault s).cfgValid = s.cfgValid := rfl
@[simp] theorem respondFault_cfg (s : State) : (respondFault s).cfg = s.cfg := rfl
@[simp] theorem respondFault_fault (s : State) : (respondFault s).fault = s.fault := rfl

@[simp] theorem recordFault_cfgValid (c : FaultCause) (s : State) : (recordFault c s).cfgValid = s.cfgValid := by
  unfold recordFault
  split <;> rfl

@[simp] theorem recordFault_cfg (c : FaultCause) (s : State) : (recordFault c s).cfg = s.cfg := by
  unfold recordFault
  split <;> rfl

@[simp] theorem raiseFault_cfgValid (c : FaultCause) (s : State) : (raiseFault c s).cfgValid = s.cfgValid := by
  simp [raiseFault]

@[simp] theorem raiseFault_cfg (c : FaultCause) (s : State) : (raiseFault c s).cfg = s.cfg := by
  simp [raiseFault]

/-- Whether the record stood or is written now, the block is faulted afterwards (R74, R75). -/
@[simp] theorem raiseFault_flt (c : FaultCause) (s : State) : (raiseFault c s).fault.flt = true := by
  cases h : s.fault.flt
  · rw [raiseFault_of_unfaulted s c h]
  · rw [raiseFault_of_faulted s c h]
    exact h

/-! ## The outcomes of LOADCFG, and of the readers of an unloaded CFG -/

section Outcomes

variable {fs : Half} {asel : BitVec 2} {g dr : BitVec 3} {cm cp cl : BitVec 1} {cq : BitVec 2} {s : State}

/-- The first check of LOADCFG (R56, R80). -/
theorem exec_loadcfg_of_loaded (hf : s.fault.flt = false) (hv : s.cfgValid = true) :
    exec (.loadcfg fs asel g dr cm cp cl cq) s = .next (raiseFault .configReloaded s) := by
  simp [exec, execLoadcfg, unlessFaulted_of_unfaulted, hf, hv]

/-- The second check of LOADCFG (R56, R78). -/
theorem exec_loadcfg_of_gain_reserved (hf : s.fault.flt = false) (hv : s.cfgValid = false) (hg : 6 ≤ g.toNat) :
    exec (.loadcfg fs asel g dr cm cp cl cq) s = .next (raiseFault .gainReserved s) := by
  simp [exec, execLoadcfg, unlessFaulted_of_unfaulted, hf, hv, gainReserved_eq_true.mpr hg]

/-- The third check of LOADCFG (R56, R78). -/
theorem exec_loadcfg_of_fs_mismatch (hf : s.fault.flt = false) (hv : s.cfgValid = false) (hg : g.toNat < 6)
    (hfs : fs ≠ Config.fsOfGain g) :
    exec (.loadcfg fs asel g dr cm cp cl cq) s = .next (raiseFault .fsMismatch s) := by
  simp [exec, execLoadcfg, unlessFaulted_of_unfaulted, hf, hv, gainReserved_eq_false.mpr hg, hfs]

/-- A LOADCFG that passes its checks loads its operands (R56). -/
theorem exec_loadcfg_of_accepted (hf : s.fault.flt = false) (hv : s.cfgValid = false) (hg : g.toNat < 6)
    (hfs : fs = Config.fsOfGain g) :
    exec (.loadcfg fs asel g dr cm cp cl cq) s = .next (complete 0#32 (s.setCfg
      { addrSel := asel, gain := g, rate := dr, compMode := cm, compPol := cp, compLat := cl, compQue := cq,
        fsMv := fs })) := by
  simp [exec, execLoadcfg, unlessFaulted_of_unfaulted, hf, hv, gainReserved_eq_false.mpr hg, hfs]

theorem exec_enccfg_of_unloaded (ch : BitVec 8) (hf : s.fault.flt = false) (hv : s.cfgValid = false) :
    exec (.enccfg ch) s = .next (raiseFault .notConfigured s) := by
  simp [exec, execEnccfg, unlessFaulted_of_unfaulted, whenConfigured_of_invalid, hf, hv]

theorem exec_tovolt_of_unloaded (raw : Half) (hf : s.fault.flt = false) (hv : s.cfgValid = false) :
    exec (.tovolt raw) s = .next (raiseFault .notConfigured s) := by
  simp [exec, execTovolt, unlessFaulted_of_unfaulted, whenConfigured_of_invalid, hf, hv]

end Outcomes

/-! ## What a step does to CFG_VALID, CFG and the fault record

The three ways a command can leave them, and with a reset the four ways a step can. The claims about the state's
registers below are read off this one inversion. -/

/-- `t` holds the CFG_VALID, CFG and fault record of `s`. -/
structure KeepsRegisters (s t : State) : Prop where
  cfgValid : t.cfgValid = s.cfgValid
  cfg : t.cfg = s.cfg
  fault : t.fault = s.fault

/-- From `s` to `t` the first fault of a run is taken, and the configuration stays (R74). -/
structure TakesFirstFault (s t : State) : Prop where
  unfaulted : s.fault.flt = false
  faulted : t.fault.flt = true
  cfgValid : t.cfgValid = s.cfgValid
  cfg : t.cfg = s.cfg

/-- `i` is a LOADCFG that passes the checks of R56 on `s`, and `t` holds its operands in CFG. -/
def AcceptsLoadcfg (i : Instr) (s t : State) : Prop :=
  ∃ fs asel g dr cm cp cl cq, i = .loadcfg fs asel g dr cm cp cl cq ∧ g.toNat < 6 ∧ fs = Config.fsOfGain g ∧
    s.cfgValid = false ∧ t.fault = s.fault ∧
    t.cfg = { addrSel := asel, gain := g, rate := dr, compMode := cm, compPol := cp, compLat := cl, compQue := cq,
              fsMv := fs }

theorem AcceptsLoadcfg.unloaded {i : Instr} {s t : State} (h : AcceptsLoadcfg i s t) : s.cfgValid = false := by
  obtain ⟨_, _, _, _, _, _, _, _, -, -, -, hv, -⟩ := h
  exact hv

theorem AcceptsLoadcfg.fault {i : Instr} {s t : State} (h : AcceptsLoadcfg i s t) : t.fault = s.fault := by
  obtain ⟨_, _, _, _, _, _, _, _, -, -, -, -, hfault, -⟩ := h
  exact hfault

theorem keepsRegisters_respondFault (s : State) : KeepsRegisters s (respondFault s) := ⟨rfl, rfl, rfl⟩

theorem keepsRegisters_complete (r : RWord) (s : State) : KeepsRegisters s (complete r s) := ⟨rfl, rfl, rfl⟩

theorem takesFirstFault_raiseFault (c : FaultCause) {s : State} (h : s.fault.flt = false) :
    TakesFirstFault s (raiseFault c s) :=
  ⟨h, raiseFault_flt c s, raiseFault_cfgValid c s, raiseFault_cfg c s⟩

/-- An unfaulted block takes a fault of LOADCFG, or loads the operands. -/
theorem exec_loadcfg_effect {fs : Half} {asel : BitVec 2} {g dr : BitVec 3} {cm cp cl : BitVec 1} {cq : BitVec 2}
    {s t : State} (hf : s.fault.flt = false) (h : exec (.loadcfg fs asel g dr cm cp cl cq) s = .next t) :
    TakesFirstFault s t ∨ AcceptsLoadcfg (.loadcfg fs asel g dr cm cp cl cq) s t := by
  cases hv : s.cfgValid with
  | true =>
    rw [exec_loadcfg_of_loaded hf hv] at h
    cases h
    exact .inl (takesFirstFault_raiseFault _ hf)
  | false =>
    rcases Nat.lt_or_ge g.toNat 6 with hg | hg
    · by_cases hfs : fs = Config.fsOfGain g
      · rw [exec_loadcfg_of_accepted hf hv hg hfs] at h
        cases h
        exact .inr ⟨_, _, _, _, _, _, _, _, rfl, hg, hfs, hv, rfl, rfl⟩
      · rw [exec_loadcfg_of_fs_mismatch hf hv hg hfs] at h
        cases h
        exact .inl (takesFirstFault_raiseFault _ hf)
    · rw [exec_loadcfg_of_gain_reserved hf hv hg] at h
      cases h
      exact .inl (takesFirstFault_raiseFault _ hf)

/-- Every command keeps the registers, takes the first fault, or is an accepted LOADCFG. -/
theorem exec_effect {i : Instr} {s t : State} (h : exec i s = .next t) :
    KeepsRegisters s t ∨ TakesFirstFault s t ∨ AcceptsLoadcfg i s t := by
  rcases exec_cases h with ⟨-, rfl⟩ | ⟨hf, ⟨c, rfl⟩ | ⟨r, rfl⟩ | ⟨_, hm, -⟩⟩
  · exact .inl (keepsRegisters_respondFault s)
  · exact .inr (.inl (takesFirstFault_raiseFault c hf))
  · exact .inl (keepsRegisters_complete r s)
  · cases i with
    | loadcfg => exact .inr (exec_loadcfg_effect hf h)
    | _ => cases hm

/-- An illegal command is answered from a standing record, or is the first fault (R75, R77). -/
theorem illegalCommand_effect (s : State) :
    KeepsRegisters s (illegalCommand s) ∨ TakesFirstFault s (illegalCommand s) := by
  unfold illegalCommand
  cases hf : s.fault.flt with
  | true =>
    rw [unlessFaulted_of_faulted _ _ hf]
    exact .inl (keepsRegisters_respondFault s)
  | false =>
    rw [unlessFaulted_of_unfaulted _ _ hf]
    exact .inr (takesFirstFault_raiseFault _ hf)

/-- Taking an entry from the host's list touches no register, so effects may be read from the state before it. -/
theorem KeepsRegisters.of_setPending {s t : State} {p : List HostEvent} (h : KeepsRegisters (s.setPending p) t) :
    KeepsRegisters s t := ⟨h.cfgValid, h.cfg, h.fault⟩

theorem TakesFirstFault.of_setPending {s t : State} {p : List HostEvent} (h : TakesFirstFault (s.setPending p) t) :
    TakesFirstFault s t := ⟨h.unfaulted, h.faulted, h.cfgValid, h.cfg⟩

/-- The four ways a step can leave CFG_VALID, CFG and the fault record. -/
theorem step_effect {s t : State} (h : step s = .next t) :
    KeepsRegisters s t ∨ TakesFirstFault s t ∨
    (∃ c rest i, s.pending = .command c :: rest ∧ decode c = .ok i ∧ AcceptsLoadcfg i s t) ∨
    (∃ rest, s.pending = .reset :: rest ∧ t = State.reset.setPending rest) := by
  rcases step_cases h with ⟨-, rfl⟩ | hreset | ⟨c, rest, e, -, -, rfl⟩ | ⟨c, rest, i, hp, hd, hx⟩
  · exact .inl ⟨rfl, rfl, rfl⟩
  · exact .inr (.inr (.inr hreset))
  · rcases illegalCommand_effect (s.setPending rest) with hk | ht
    · exact .inl hk.of_setPending
    · exact .inr (.inl ht.of_setPending)
  · rcases exec_effect hx with hk | ht | hl
    · exact .inl hk.of_setPending
    · exact .inr (.inl ht.of_setPending)
    · exact .inr (.inr (.inl ⟨c, rest, i, hp, hd, hl⟩))

/-! ## CFG_VALID and CFG (R16, R17, R79, R80) -/

/-- Only an accepted LOADCFG sets CFG_VALID (R16). -/
theorem step_acceptsLoadcfg_of_sets_valid {s t : State} (h : step s = .next t) (hs : s.cfgValid = false)
    (ht : t.cfgValid = true) :
    ∃ c rest i, s.pending = .command c :: rest ∧ decode c = .ok i ∧ AcceptsLoadcfg i s t := by
  rcases step_effect h with hk | hf | hl | ⟨rest, -, rfl⟩
  · simp [hk.cfgValid, hs] at ht
  · simp [hf.cfgValid, hs] at ht
  · exact hl
  · cases ht

/-- While CFG is loaded, a step without reset writes neither CFG nor CFG_VALID (R17). -/
theorem step_keeps_loaded_cfg {s t : State} (hv : s.cfgValid = true) (hr : s.pending.head? ≠ some .reset)
    (h : step s = .next t) : t.cfg = s.cfg ∧ t.cfgValid = true := by
  rcases step_effect h with hk | hf | ⟨_, _, _, -, -, hl⟩ | ⟨rest, hp, -⟩
  · exact ⟨hk.cfg, hk.cfgValid.trans hv⟩
  · exact ⟨hf.cfg, hf.cfgValid.trans hv⟩
  · simp [hl.unloaded] at hv
  · simp [hp] at hr

/-- The commands that read CFG take NOT_CONFIGURED while it is unloaded (R16, R79). -/
theorem exec_reader_of_unloaded {s : State} {i : Instr} (hv : s.cfgValid = false) (hf : s.fault.flt = false)
    (hi : i.mnemonic = .ENCCFG ∨ i.mnemonic = .TOVOLT) : exec i s = .next (raiseFault .notConfigured s) := by
  cases i with
  | enccfg ch => exact exec_enccfg_of_unloaded ch hf hv
  | tovolt raw => exact exec_tovolt_of_unloaded raw hf hv
  | _ => rcases hi with hi | hi <;> cases hi

/-- Settles O29: setting is the LOADCFG branch of `step_effect`, and clearing without a reset would contradict that a
loaded CFG is kept. -/
theorem onlyLoadcfgSetsValidOnlyResetClearsIt : Obligations.OnlyLoadcfgSetsValidOnlyResetClearsIt := by
  refine ⟨fun s t h hs ht => ?_, fun s t h hs ht => ?_, fun s rest hp => ⟨_, step_reset hp, rfl⟩,
    fun s i hv hf hi => ?_⟩
  · obtain ⟨c, rest, i, hp, hd, fs, asel, g, dr, cm, cp, cl, cq, rfl, hg, hfs, -, -, hcfg⟩ :=
      step_acceptsLoadcfg_of_sets_valid h hs ht
    exact ⟨c, rest, fs, asel, g, dr, cm, cp, cl, cq, hp, hd, hg, hfs, hcfg⟩
  · by_contra hr
    obtain ⟨-, hkept⟩ := step_keeps_loaded_cfg hs hr h
    simp [hkept] at ht
  · rw [exec_reader_of_unloaded hv hf hi, raiseFault_of_unfaulted s _ hf]
    rfl

/-- Settles O30: a loaded CFG is kept by every step without reset, and CONFIG_RELOADED is LOADCFG's first check. -/
theorem loadedConfigurationIsReadOnly : Obligations.LoadedConfigurationIsReadOnly := by
  refine ⟨fun s t hv hr h => step_keeps_loaded_cfg hv hr h, fun s fs asel g dr cm cp cl cq hv hf => ?_⟩
  rw [exec_loadcfg_of_loaded hf hv, raiseFault_of_unfaulted s _ hf]
  rfl

/-! ## The fault record (R19) -/

/-- A step without reset keeps the record, or takes the first fault. -/
theorem step_fault_kept_or_first {s t : State} (hr : s.pending.head? ≠ some .reset) (h : step s = .next t) :
    t.fault = s.fault ∨ (s.fault.flt = false ∧ t.fault.flt = true) := by
  rcases step_effect h with hk | hf | ⟨_, _, _, -, -, hl⟩ | ⟨rest, hp, -⟩
  · exact .inl hk.fault
  · exact .inr ⟨hf.unfaulted, hf.faulted⟩
  · exact .inl hl.fault
  · simp [hp] at hr

/-- A record that stands is kept until reset. -/
theorem step_keeps_standing_fault {s t : State} (hs : s.fault.flt = true) (hr : s.pending.head? ≠ some .reset)
    (h : step s = .next t) : t.fault = s.fault := by
  rcases step_fault_kept_or_first hr h with hk | ⟨hs', -⟩
  · exact hk
  · simp [hs] at hs'

/-- A step into an unfaulted state keeps the record or is a reset, so a zero record stays zero. -/
theorem step_keeps_zero_record {s t : State}
    (hz : s.fault.flt = false → s.fault.fcode = 0x0#4 ∧ s.fault.finfo = 0x0#4) (h : step s = .next t)
    (ht : t.fault.flt = false) : t.fault.fcode = 0x0#4 ∧ t.fault.finfo = 0x0#4 := by
  by_cases hr : s.pending.head? = some .reset
  · obtain ⟨rest, hp⟩ := List.head?_eq_some_iff.mp hr
    rw [step_reset hp] at h
    cases h
    exact ⟨rfl, rfl⟩
  · rcases step_fault_kept_or_first hr h with hk | ⟨-, ht'⟩
    · rw [hk] at ht ⊢
      exact hz ht
    · simp [ht] at ht'

/-- Settles O31: its clauses are the two step lemmas about the record, and the reset state. -/
theorem firstFaultRecordIsKeptUntilReset : Obligations.FirstFaultRecordIsKeptUntilReset :=
  ⟨fun _ _ hs hr h => step_keeps_standing_fault hs hr h, fun _ _ hz h ht => step_keeps_zero_record hz h ht,
    fun _ _ hp => ⟨_, step_reset hp, rfl⟩⟩

end Sys2Proof.Machine

/-! ## The fields of an encoded word (30_encoding.md R43) -/

namespace Sys2Proof

/-- Every operand is read back from the place it was written to. A field of a concatenation is found by dropping the
parts to its right, and those that it does not reach to its left. -/
theorem decode_encode (i : Instr) : decode (encode i) = .ok i := by
  cases i
  all_goals
    simp (disch := decide) only [decode, opField, operandField, encode, BitVec.extractLsb'_cast,
      BitVec.extractLsb'_extractLsb'_of_le, BitVec.extractLsb'_append_eq_of_le,
      BitVec.extractLsb'_append_eq_of_add_le]
    simp

end Sys2Proof

/-! ## The fields of the words the configuration codec computes (40_config_codec.md) -/

namespace Sys2Proof.Machine

/-- Zero extension to R puts zeros above the value (R8). -/
theorem setWidth32_extractLsb'_above {w lo n : Nat} (x : BitVec w) (hw : w ≤ lo) (hn : lo + n ≤ 32) :
    (x.setWidth 32).extractLsb' lo n = 0#n := by
  rw [BitVec.extractLsb'_setWidth_of_le hn]
  apply BitVec.eq_of_getLsbD_eq
  intro k _
  simp [BitVec.getLsbD_of_ge x (lo + k) (by omega)]

theorem zext32_upperHalf (w : Half) : (zext32 w).extractLsb' 16 16 = 0#16 :=
  setWidth32_extractLsb'_above w (by decide) (by decide)

theorem zext32_extractLsb' (w : Half) {lo n : Nat} (h : lo + n ≤ 32) :
    (zext32 w).extractLsb' lo n = w.extractLsb' lo n :=
  BitVec.extractLsb'_setWidth_of_le h

/-- The ConfigWord that starts a conversion, field by field (R45, R57). -/
theorem startWord_fields (c : Cfg) (mux : BitVec 3) :
    (startWord c mux).extractLsb' 15 1 = 1#1 ∧ (startWord c mux).extractLsb' 12 3 = mux ∧
    (startWord c mux).extractLsb' 9 3 = c.gain ∧ (startWord c mux).extractLsb' 8 1 = 1#1 ∧
    (startWord c mux).extractLsb' 5 3 = c.rate ∧ (startWord c mux).extractLsb' 4 1 = c.compMode ∧
    (startWord c mux).extractLsb' 3 1 = c.compPol ∧ (startWord c mux).extractLsb' 2 1 = c.compLat ∧
    (startWord c mux).extractLsb' 0 2 = c.compQue := by
  simp (disch := decide) only [startWord, BitVec.extractLsb'_cast, BitVec.extractLsb'_append_eq_of_le,
    BitVec.extractLsb'_append_eq_of_add_le]
  simp

theorem muxOfChannel_eq (c : Fin 4) : muxOfChannel c = BitVec.ofNat 3 (4 + c.val) := by
  revert c
  decide

/-- The ready bit and the multiplexer code are the four most significant bits of a read-back word (R62). -/
theorem readyBit_append_activeMux_toNat (w : Half) : (readyBit w ++ activeMux w).toNat = w.toNat / 4096 := by
  have hw := w.isLt
  have hfour : readyBit w ++ activeMux w = w.extractLsb' 12 4 :=
    BitVec.extractLsb'_append_extractLsb'_eq_extractLsb' rfl
  rw [hfour, BitVec.extractLsb'_toNat, Nat.shiftRight_eq_div_pow]
  omega

theorem readyAndMatching_iff (c : Fin 4) (w : Half) :
    readyAndMatching c w = true ↔ readyBit w = 1#1 ∧ (activeMux w).toNat = 4 + c.val := by
  rw [← muxOfChannel_toNat, ← BitVec.toNat_eq]
  simp [readyAndMatching]

/-! ## The outcomes of the configuration codec on an unfaulted block -/

section CodecOutcomes

variable {s : State}

theorem exec_enccfg_of_loaded {ch : BitVec 8} (hf : s.fault.flt = false) (hv : s.cfgValid = true)
    (hc : ch.toNat < 4) :
    exec (.enccfg ch) s = .next (complete (zext32 (startWord s.cfg (muxOfChannel ⟨ch.toNat, hc⟩))) s) := by
  simp [exec, execEnccfg, unlessFaulted_of_unfaulted, whenConfigured_of_valid, withChannel_of_lt, hf, hv, hc]

theorem exec_enccfg_of_channel_range {ch : BitVec 8} (hf : s.fault.flt = false) (hv : s.cfgValid = true)
    (hc : 4 ≤ ch.toNat) : exec (.enccfg ch) s = .next (raiseFault .channelRange s) := by
  simp [exec, execEnccfg, unlessFaulted_of_unfaulted, whenConfigured_of_valid, withChannel_of_le, hf, hv, hc]

/-- The two wire bytes of W, side by side, are W (R59). -/
theorem exec_cfgbytes_of_unfaulted (w : Half) (hf : s.fault.flt = false) :
    exec (.cfgbytes w) s = .next (complete (zext32 w) s) := by
  simp [exec, execCfgbytes, unlessFaulted_of_unfaulted, hf]

theorem exec_cfgword_of_unfaulted (b0 b1 : Byte) (hf : s.fault.flt = false) :
    exec (.cfgword b0 b1) s = .next (complete (zext32 (be16 b0 b1)) s) := by
  simp [exec, execCfgword, unlessFaulted_of_unfaulted, hf]

theorem exec_decstat_of_unfaulted (w : Half) (hf : s.fault.flt = false) :
    exec (.decstat w) s = .next (complete ((readyBit w ++ activeMux w).setWidth 32) s) := by
  simp [exec, execDecstat, unlessFaulted_of_unfaulted, hf]

theorem exec_rdymatch_of_channel {ch : BitVec 8} (w : Half) (hf : s.fault.flt = false) (hc : ch.toNat < 4) :
    exec (.rdymatch ch w) s
      = .next (complete ((BitVec.ofBool (readyAndMatching ⟨ch.toNat, hc⟩ w)).setWidth 32) s) := by
  simp [exec, execRdymatch, unlessFaulted_of_unfaulted, withChannel_of_lt, hf, hc]

theorem exec_rdymatch_of_channel_range {ch : BitVec 8} (w : Half) (hf : s.fault.flt = false) (hc : 4 ≤ ch.toNat) :
    exec (.rdymatch ch w) s = .next (raiseFault .channelRange s) := by
  simp [exec, execRdymatch, unlessFaulted_of_unfaulted, withChannel_of_le, hf, hc]

end CodecOutcomes

/-- No LOADCFG with FS = 0 is accepted: FS_OF_GAIN gives no zero (R56, D9). -/
theorem exec_loadcfg_zero_fs_faults {asel : BitVec 2} {g dr : BitVec 3} {cm cp cl : BitVec 1} {cq : BitVec 2}
    {s : State} (hf : s.fault.flt = false) :
    ∃ t, exec (.loadcfg 0#16 asel g dr cm cp cl cq) s = .next t ∧ TakesFirstFault s t := by
  obtain ⟨t, ht, -⟩ := exec_unfaulted (.loadcfg 0#16 asel g dr cm cp cl cq) s hf
  rcases exec_loadcfg_effect hf ht with hfault | ⟨_, _, _, _, _, _, _, _, hi, -, hfs, -⟩
  · exact ⟨t, ht, hfault⟩
  · cases hi
    exact absurd hfs.symm (fsOfGain_ne_zero _)

/-! ## The claims about the configuration codec (R56, R57, R59, R60, R62, R64) -/

/-- Settles O13: its clauses are the outcomes of LOADCFG in the order of its checks. -/
theorem loadcfgChecksThenLoadsEveryField : Obligations.LoadcfgChecksThenLoadsEveryField := by
  intro fs asel g dr cm cp cl cq s
  refine ⟨decode_encode (.loadcfg fs asel g dr cm cp cl cq), fun hf =>
    ⟨fun hv => ?_, fun hv hg => ?_, fun hv hg hfs => ?_, fun hv hg hfs => ?_, fun hz => ?_⟩⟩
  · rw [exec_loadcfg_of_loaded hf hv, raiseFault_of_unfaulted s _ hf]
    rfl
  · rw [exec_loadcfg_of_gain_reserved hf hv hg, raiseFault_of_unfaulted s _ hf]
    rfl
  · rw [exec_loadcfg_of_fs_mismatch hf hv hg hfs, raiseFault_of_unfaulted s _ hf]
    rfl
  · exact exec_loadcfg_of_accepted hf hv hg hfs
  · subst hz
    obtain ⟨t, ht, hfault⟩ := exec_loadcfg_zero_fs_faults hf
    exact ⟨t, ht, hfault.faulted, hfault.cfg, hfault.cfgValid⟩

/-- Settles O14: its two faults are outcomes of ENCCFG, and R is the start word, read field by field. -/
theorem enccfgBuildsTheStartWord : Obligations.EnccfgBuildsTheStartWord := by
  intro ch s
  refine ⟨decode_encode (.enccfg ch), fun hf => ⟨fun hv => ?_, fun hv hc => ?_, fun hv hc => ?_⟩⟩
  · rw [exec_enccfg_of_unloaded ch hf hv, raiseFault_of_unfaulted s _ hf]
    rfl
  · rw [exec_enccfg_of_channel_range hf hv hc, raiseFault_of_unfaulted s _ hf]
    rfl
  · refine ⟨_, exec_enccfg_of_loaded hf hv hc, zext32_upperHalf _, ?_⟩
    simp (disch := decide) only [zext32_extractLsb', ← muxOfChannel_eq ⟨ch.toNat, hc⟩]
    exact startWord_fields _ _

/-- Settles O16: R is W, zero-extended. -/
theorem cfgbytesSplitsInWireOrder : Obligations.CfgbytesSplitsInWireOrder := fun w _ =>
  ⟨decode_encode (.cfgbytes w), fun hf => ⟨_, exec_cfgbytes_of_unfaulted w hf, zext32_upperHalf w,
    zext32_extractLsb' w (by decide), zext32_extractLsb' w (by decide), zext32_toNat w⟩⟩

/-- Settles O17: R is `be16(B0, B1)`, zero-extended. -/
theorem cfgwordAssemblesBigEndian : Obligations.CfgwordAssemblesBigEndian := fun b0 b1 _ =>
  ⟨decode_encode (.cfgword b0 b1), fun hf => ⟨_, exec_cfgword_of_unfaulted b0 b1 hf,
    (zext32_toNat _).trans (be16_toNat b0 b1)⟩⟩

/-- Settles O19: R is the ready bit and the multiplexer code side by side, zero-extended. -/
theorem decstatReportsReadyAndMux : Obligations.DecstatReportsReadyAndMux := by
  intro w s
  refine ⟨decode_encode (.decstat w), fun hf => ⟨_, exec_decstat_of_unfaulted w hf, ?_, ?_, ?_, ?_⟩⟩
  · rw [BitVec.extractLsb'_setWidth_of_le (by decide)]
    exact BitVec.extractLsb'_append_eq_left
  · rw [BitVec.extractLsb'_setWidth_of_le (by decide)]
    exact BitVec.extractLsb'_append_eq_right
  · exact setWidth32_extractLsb'_above _ (by decide) (by decide)
  · rw [BitVec.toNat_setWidth_of_le (by decide)]
    exact readyBit_append_activeMux_toNat w

/-- Settles O20: R is the one-bit conjunction, zero-extended, and each clause fixes that bit. -/
theorem rdymatchNeedsReadyAndMatchingMux : Obligations.RdymatchNeedsReadyAndMatchingMux := by
  intro ch w s
  refine ⟨decode_encode (.rdymatch ch w), fun hf => ⟨fun hc => ?_, fun hc hr hm => ?_, fun hc hn => ?_⟩⟩
  · rw [exec_rdymatch_of_channel_range w hf hc, raiseFault_of_unfaulted s _ hf]
    rfl
  · have hmatch : readyAndMatching ⟨ch.toNat, hc⟩ w = true := (readyAndMatching_iff _ w).mpr ⟨hr, hm⟩
    rw [exec_rdymatch_of_channel w hf hc, hmatch]
    rfl
  · have hmatch : readyAndMatching ⟨ch.toNat, hc⟩ w = false :=
      Bool.eq_false_iff.mpr (mt (readyAndMatching_iff _ w).mp hn)
    rw [exec_rdymatch_of_channel w hf hc, hmatch]
    rfl

end Sys2Proof.Machine

/-! ## The conversion codec (41_conversion_codec.md) -/

namespace Sys2Proof.Machine

@[simp] theorem sext32_toInt (w : Half) : (sext32 w).toInt = w.toInt :=
  BitVec.toInt_signExtend_of_le (by decide)

/-- The sign of a code is the top bit of its first byte (R52, R65). -/
theorem be16_toInt (b0 b1 : Byte) :
    (be16 b0 b1).toInt =
      if 128 ≤ b0.toNat then 256 * (b0.toNat : Int) + b1.toNat - 65536 else 256 * (b0.toNat : Int) + b1.toNat := by
  have h1 := b1.isLt
  rw [BitVec.toInt_eq_toNat_cond, be16_toNat]
  by_cases h : 128 ≤ b0.toNat
  · rw [if_pos h, if_neg (by omega)]
    omega
  · rw [if_neg h, if_pos (by omega)]
    omega

/-- The unsigned reading of a code is the signed one, plus 2^16 when that is negative (R52). -/
theorem half_toNat_of_toInt (w : Half) :
    (w.toNat : Int) = if w.toInt < 0 then w.toInt + 65536 else w.toInt := by
  have hw := w.isLt
  rw [BitVec.toInt_eq_toNat_cond]
  by_cases h : 2 * w.toNat < 2 ^ 16
  · rw [if_pos h, if_neg (by omega)]
  · rw [if_neg h, if_pos (by omega)]
    omega

theorem exec_decconv_of_unfaulted (b0 b1 : Byte) {s : State} (hf : s.fault.flt = false) :
    exec (.decconv b0 b1) s = .next (complete (sext32 (be16 b0 b1)) s) := by
  simp [exec, execDecconv, unlessFaulted_of_unfaulted, hf]

/-- The two wire bytes of RAW, side by side, are RAW (R66). -/
theorem exec_encconv_of_unfaulted (raw : Half) {s : State} (hf : s.fault.flt = false) :
    exec (.encconv raw) s = .next (complete (zext32 raw) s) := by
  simp [exec, execEncconv, unlessFaulted_of_unfaulted, hf]

/-- Settles O22: R is `be16(B0, B1)`, sign-extended, and sign extension keeps the signed value. -/
theorem decconvGivesTheSignedCode : Obligations.DecconvGivesTheSignedCode := fun b0 b1 _ =>
  ⟨decode_encode (.decconv b0 b1), fun hf => ⟨_, exec_decconv_of_unfaulted b0 b1 hf,
    (sext32_toInt _).trans (be16_toInt b0 b1)⟩⟩

/-- Settles O23: R is RAW, zero-extended, so its unsigned value is the unsigned reading of the code. -/
theorem encconvGivesTheTwoBytes : Obligations.EncconvGivesTheTwoBytes := by
  intro raw s
  refine ⟨decode_encode (.encconv raw), fun hf => ⟨_, exec_encconv_of_unfaulted raw hf, zext32_upperHalf raw,
    zext32_extractLsb' raw (by decide), zext32_extractLsb' raw (by decide), ?_⟩⟩
  rw [zext32_toNat]
  exact half_toNat_of_toInt raw

end Sys2Proof.Machine

/-! ## The voltage scaler (42_voltage_scaler.md) -/

namespace Sys2Proof.Machine

/-- The bounds R69 states: -32768 * 65535 and 32767 * 65535. -/
theorem code_mul_fullScale_bounds (raw fs : Half) :
    -2147450880 ≤ raw.toInt * fs.toNat ∧ raw.toInt * fs.toNat ≤ 2147385345 := by
  have hfs := fs.isLt
  have hlow : -32768 * (fs.toNat : Int) ≤ raw.toInt * fs.toNat :=
    Int.mul_le_mul_of_nonneg_right raw.le_toInt (Int.natCast_nonneg _)
  have hhigh : raw.toInt * (fs.toNat : Int) ≤ 32767 * fs.toNat :=
    Int.mul_le_mul_of_nonneg_right (Int.le_of_lt_add_one raw.toInt_lt) (Int.natCast_nonneg _)
  omega

/-- The product fits the response word, so `bits_32` keeps it (R69). -/
@[simp] theorem scale_toInt (raw fs : Half) : (scale raw fs).toInt = raw.toInt * fs.toNat := by
  obtain ⟨hlow, hhigh⟩ := code_mul_fullScale_bounds raw fs
  exact BitVec.toInt_ofInt_eq_self (by decide) (by omega) (by omega)

theorem exec_tovolt_of_loaded (raw : Half) {s : State} (hf : s.fault.flt = false) (hv : s.cfgValid = true) :
    exec (.tovolt raw) s = .next (complete (scale raw s.cfg.fsMv) s) := by
  simp [exec, execTovolt, unlessFaulted_of_unfaulted, whenConfigured_of_valid, hf, hv]

/-- Settles O25: the product fits 32 bits, and the source's formula is that product over 2^15. -/
theorem scaleIsTheExactProduct : Obligations.ScaleIsTheExactProduct := by
  intro raw fs
  obtain ⟨hlow, hhigh⟩ := code_mul_fullScale_bounds raw fs
  rw [scale_toInt]
  refine ⟨rfl, hlow, hhigh, ?_⟩
  push_cast
  ring

/-- Settles O26: its fault and its product are the two outcomes of TOVOLT on an unfaulted block. -/
theorem tovoltScalesByTheLoadedFullScale : Obligations.TovoltScalesByTheLoadedFullScale := by
  intro raw s
  refine ⟨decode_encode (.tovolt raw), fun hf => ⟨fun hv => ?_, fun hv => ?_⟩⟩
  · rw [exec_tovolt_of_unloaded raw hf hv, raiseFault_of_unfaulted s _ hf]
    rfl
  · exact ⟨_, exec_tovolt_of_loaded raw hf hv, scale_toInt raw s.cfg.fsMv⟩

end Sys2Proof.Machine

/-! ## Illegal words (30_encoding.md R42, R43) -/

namespace Sys2Proof

/-- The bits of a word under a mask of `n` ones from `lo` up are 0 exactly when that field is. -/
theorem and_fieldMask_eq_zero_iff {w : Nat} (a : BitVec w) (lo n : Nat) :
    a &&& ((BitVec.allOnes n).setWidth w <<< lo) = 0#w ↔ a.extractLsb' lo n = 0#n := by
  constructor
  · intro h
    apply BitVec.eq_of_getLsbD_eq
    intro k hk
    have hbit := congrArg (·.getLsbD (lo + k)) h
    by_cases hw : lo + k < w
    · simpa [hk, hw, show k < w by omega] using hbit
    · simp [BitVec.getLsbD_of_ge a (lo + k) (by omega)]
  · intro h
    apply BitVec.eq_of_getLsbD_eq
    intro j hj
    rcases Nat.lt_or_ge j lo with hlo | hlo
    · simp [hlo]
    · by_cases hn : j - lo < n
      · have hbit := congrArg (·.getLsbD (j - lo)) h
        have ha : a.getLsbD j = false := by simpa [hn, Nat.add_sub_cancel' hlo] using hbit
        simp [ha]
      · simp [hn]

/-! The reserved masks of R41, each as the field or fields that the decoder tests. -/

theorem and_upperHalf_eq_zero_iff (a : BitVec 32) : a &&& 0xFFFF0000#32 = 0#32 ↔ a.extractLsb' 16 16 = 0#16 :=
  and_fieldMask_eq_zero_iff a 16 16

theorem and_aboveChannel_eq_zero_iff (a : BitVec 32) : a &&& 0xFFFFFF00#32 = 0#32 ↔ a.extractLsb' 8 24 = 0#24 :=
  and_fieldMask_eq_zero_iff a 8 24

theorem and_topByte_eq_zero_iff (a : BitVec 32) : a &&& 0xFF000000#32 = 0#32 ↔ a.extractLsb' 24 8 = 0#8 :=
  and_fieldMask_eq_zero_iff a 24 8

theorem and_loadcfgReserved_eq_zero_iff (a : BitVec 32) :
    a &&& 0x0000C100#32 = 0#32 ↔ a.extractLsb' 14 2 = 0#2 ∧ a.extractLsb' 8 1 = 0#1 := by
  rw [← and_fieldMask_eq_zero_iff a 14 2, ← and_fieldMask_eq_zero_iff a 8 1, ← BitVec.or_eq_zero_iff,
    ← BitVec.and_or_distrib_left]
  rfl

theorem legalCommand_eq (c : Command) :
    legalCommand c = (decide (1 ≤ (opField c).toNat) && decide ((opField c).toNat ≤ 9) &&
      decide (operandField c &&& reservedOperandBits (opField c) = 0#32)) := rfl

theorem legalCommand_eq_false_iff (c : Command) :
    legalCommand c = false ↔ (opField c).toNat = 0 ∨ 10 ≤ (opField c).toNat ∨
      operandField c &&& reservedOperandBits (opField c) ≠ 0#32 := by
  simp only [legalCommand_eq, Bool.and_eq_false_iff, decide_eq_false_iff_not, Nat.not_le, Nat.lt_one_iff, or_assoc]
  exact Iff.rfl

/-- At an assigned OP, a decoder that accepts when the reserved operand bits are 0 accepts the legal words (R42). -/
theorem isOk_ite_eq_legalCommand {c : Command} {op : BitVec 4} {p : Prop} [Decidable p] {i : Instr} {e : DecodeReject}
    (hop : (opField c).toNat = op.toNat) (hassigned : 1 ≤ op.toNat ∧ op.toNat ≤ 9)
    (hp : operandField c &&& reservedOperandBits op = 0#32 ↔ p) :
    (if p then Except.ok i else Except.error e).isOk = legalCommand c := by
  obtain rfl := BitVec.eq_of_toNat_eq hop
  by_cases h : p
  · simp [legalCommand_eq, hassigned, hp, h, Except.isOk, Except.toBool]
  · simp [legalCommand_eq, hp, h, Except.isOk, Except.toBool]

/-- The decoder accepts the legal words and no others (R42, R43). -/
theorem isOk_decode (c : Command) : (decode c).isOk = legalCommand c := by
  unfold decode
  split
  · exact isOk_ite_eq_legalCommand (op := 0x1#4) ‹_› (by decide) (and_loadcfgReserved_eq_zero_iff _)
  · exact isOk_ite_eq_legalCommand (op := 0x2#4) ‹_› (by decide) (and_aboveChannel_eq_zero_iff _)
  · exact isOk_ite_eq_legalCommand (op := 0x3#4) ‹_› (by decide) (and_upperHalf_eq_zero_iff _)
  · exact isOk_ite_eq_legalCommand (op := 0x4#4) ‹_› (by decide) (and_upperHalf_eq_zero_iff _)
  · exact isOk_ite_eq_legalCommand (op := 0x5#4) ‹_› (by decide) (and_upperHalf_eq_zero_iff _)
  · exact isOk_ite_eq_legalCommand (op := 0x6#4) ‹_› (by decide) (and_topByte_eq_zero_iff _)
  · exact isOk_ite_eq_legalCommand (op := 0x7#4) ‹_› (by decide) (and_upperHalf_eq_zero_iff _)
  · exact isOk_ite_eq_legalCommand (op := 0x8#4) ‹_› (by decide) (and_upperHalf_eq_zero_iff _)
  · exact isOk_ite_eq_legalCommand (op := 0x9#4) ‹_› (by decide) (and_upperHalf_eq_zero_iff _)
  · have hop : (opField c).toNat = 0 ∨ 10 ≤ (opField c).toNat := by
      simp only [imp_false] at *
      omega
    rw [(legalCommand_eq_false_iff c).mpr (hop.imp_right .inl)]
    rfl

theorem exists_decode_eq_error_iff (c : Command) : (∃ e, decode c = .error e) ↔ legalCommand c = false := by
  rw [← isOk_decode]
  cases decode c <;> simp [Except.isOk, Except.toBool]

end Sys2Proof

namespace Sys2Proof.Machine

/-! ## The step on a faulted block, and the first fault (R74 to R77) -/

section Presented

variable {s : State} {c : Command} {rest : List HostEvent} (hp : s.pending = .command c :: rest)
include hp

theorem step_legal {i : Instr} (hd : decode c = .ok i) : step s = exec i (s.setPending rest) := by
  simp [step, hp, hd]

/-- Legal or not, a command is answered from the record that stands (R75). -/
theorem step_command_of_faulted (hf : s.fault.flt = true) : step s = .next (respondFault (s.setPending rest)) := by
  cases hd : decode c with
  | ok i => exact (step_legal hp hd).trans (exec_faulted i _ hf)
  | error e => rw [step_illegal hp hd, illegalCommand, unlessFaulted_of_faulted (s.setPending rest) _ hf]

/-- An illegal command raises ILLEGAL_COMMAND (R77). -/
theorem step_illegal_of_unfaulted (hf : s.fault.flt = false) (hc : legalCommand c = false) :
    step s = .next (raiseFault .illegalCommand (s.setPending rest)) := by
  obtain ⟨e, hd⟩ := (exists_decode_eq_error_iff c).mpr hc
  rw [step_illegal hp hd, illegalCommand, unlessFaulted_of_unfaulted (s.setPending rest) _ hf]

end Presented

/-- The state after a command that takes the first fault: its entry is off the list, the record is written and
answered, and the rest stays (R74). -/
theorem raiseFault_setPending_of_unfaulted {s : State} (cause : FaultCause) (rest : List HostEvent)
    (hf : s.fault.flt = false) :
    raiseFault cause (s.setPending rest) = { s with
      pending := rest
      fault := { flt := true, fcode := faultCode cause, finfo := faultInfo cause }
      resp := some { r := (faultInfo cause).setWidth 32, f := true, fc := faultCode cause } } :=
  raiseFault_of_unfaulted (s.setPending rest) cause hf

/-- The rows of R76's table that a legal command raises: CFG_VALID, the command, and the cause. -/
inductive ListedCause (valid : Bool) : Instr → FaultCause → Prop where
  | gainReserved {fs asel g dr cm cp cl cq} (hg : 6 ≤ g.toNat) :
      ListedCause valid (.loadcfg fs asel g dr cm cp cl cq) .gainReserved
  | fsMismatch {fs asel g dr cm cp cl cq} (hfs : fs ≠ Config.fsOfGain g) :
      ListedCause valid (.loadcfg fs asel g dr cm cp cl cq) .fsMismatch
  | configReloaded {fs asel g dr cm cp cl cq} (hv : valid = true) :
      ListedCause valid (.loadcfg fs asel g dr cm cp cl cq) .configReloaded
  | enccfgChannel {ch} (hc : 4 ≤ ch.toNat) : ListedCause valid (.enccfg ch) .channelRange
  | rdymatchChannel {ch w} (hc : 4 ≤ ch.toNat) : ListedCause valid (.rdymatch ch w) .channelRange
  | enccfgUnloaded {ch} (hv : valid = false) : ListedCause valid (.enccfg ch) .notConfigured
  | tovoltUnloaded {raw} (hv : valid = false) : ListedCause valid (.tovolt raw) .notConfigured

/-- Every command on an unfaulted block keeps the record, or raises a fault for a cause that the table lists for it. -/
theorem exec_keeps_record_or_raises_listed (i : Instr) {s : State} (hf : s.fault.flt = false) :
    ∃ t, exec i s = .next t ∧
      (t.fault = s.fault ∨ ∃ cause, ListedCause s.cfgValid i cause ∧ t = raiseFault cause s) := by
  cases i with
  | loadcfg fs asel g dr cm cp cl cq =>
    cases hv : s.cfgValid with
    | true => exact ⟨_, exec_loadcfg_of_loaded hf hv, .inr ⟨_, .configReloaded rfl, rfl⟩⟩
    | false =>
      rcases Nat.lt_or_ge g.toNat 6 with hg | hg
      · by_cases hfs : fs = Config.fsOfGain g
        · exact ⟨_, exec_loadcfg_of_accepted hf hv hg hfs, .inl rfl⟩
        · exact ⟨_, exec_loadcfg_of_fs_mismatch hf hv hg hfs, .inr ⟨_, .fsMismatch hfs, rfl⟩⟩
      · exact ⟨_, exec_loadcfg_of_gain_reserved hf hv hg, .inr ⟨_, .gainReserved hg, rfl⟩⟩
  | enccfg ch =>
    cases hv : s.cfgValid with
    | true =>
      rcases Nat.lt_or_ge ch.toNat 4 with hc | hc
      · exact ⟨_, exec_enccfg_of_loaded hf hv hc, .inl rfl⟩
      · exact ⟨_, exec_enccfg_of_channel_range hf hv hc, .inr ⟨_, .enccfgChannel hc, rfl⟩⟩
    | false => exact ⟨_, exec_enccfg_of_unloaded ch hf hv, .inr ⟨_, .enccfgUnloaded rfl, rfl⟩⟩
  | rdymatch ch w =>
    rcases Nat.lt_or_ge ch.toNat 4 with hc | hc
    · exact ⟨_, exec_rdymatch_of_channel w hf hc, .inl rfl⟩
    · exact ⟨_, exec_rdymatch_of_channel_range w hf hc, .inr ⟨_, .rdymatchChannel hc, rfl⟩⟩
  | tovolt raw =>
    cases hv : s.cfgValid with
    | true => exact ⟨_, exec_tovolt_of_loaded raw hf hv, .inl rfl⟩
    | false => exact ⟨_, exec_tovolt_of_unloaded raw hf hv, .inr ⟨_, .tovoltUnloaded rfl, rfl⟩⟩
  | cfgbytes w => exact ⟨_, exec_cfgbytes_of_unfaulted w hf, .inl rfl⟩
  | cfgword b0 b1 => exact ⟨_, exec_cfgword_of_unfaulted b0 b1 hf, .inl rfl⟩
  | decstat w => exact ⟨_, exec_decstat_of_unfaulted w hf, .inl rfl⟩
  | decconv b0 b1 => exact ⟨_, exec_decconv_of_unfaulted b0 b1 hf, .inl rfl⟩
  | encconv raw => exact ⟨_, exec_encconv_of_unfaulted raw hf, .inl rfl⟩

/-- Inversion of a step that takes the first fault: the word is illegal, or the command has a listed cause; either way
the fault is raised on the state without the command. -/
theorem step_first_fault_cases {s t : State} {c : Command} {rest : List HostEvent}
    (hp : s.pending = .command c :: rest) (hf : s.fault.flt = false) (h : step s = .next t) (ht : t.fault.flt = true) :
    ∃ cause, t = raiseFault cause (s.setPending rest) ∧
      ((legalCommand c = false ∧ cause = .illegalCommand) ∨ ∃ i, decode c = .ok i ∧ ListedCause s.cfgValid i cause) := by
  cases hd : decode c with
  | error e =>
    have hc := (exists_decode_eq_error_iff c).mp ⟨e, hd⟩
    rw [step_illegal_of_unfaulted hp hf hc] at h
    cases h
    exact ⟨_, rfl, .inl ⟨hc, rfl⟩⟩
  | ok i =>
    obtain ⟨u, hu, hkeep | ⟨cause, hcause, hraise⟩⟩ :=
      exec_keeps_record_or_raises_listed i (s := s.setPending rest) hf
    all_goals
      rw [step_legal hp hd, hu] at h
      cases h
    · simp [hkeep, hf] at ht
    · exact ⟨cause, hraise, .inr ⟨i, rfl, hcause⟩⟩

/-! ## The claims about faults (R74 to R77) -/

/-- Settles O6: words with these bits are the ones the decoder rejects, and the step raises ILLEGAL_COMMAND. -/
theorem illegalCommandRecordsItsFault : Obligations.IllegalCommandRecordsItsFault := by
  intro s c rest hp hf hbits
  rw [step_illegal_of_unfaulted hp hf ((legalCommand_eq_false_iff c).mpr hbits),
    raiseFault_setPending_of_unfaulted _ rest hf]
  rfl

/-- Settles O7: both kinds of command are answered from the record, and a step without reset keeps a standing record. -/
theorem faultedBlockExecutesNothing : Obligations.FaultedBlockExecutesNothing := by
  refine ⟨fun s c rest hp hf => step_command_of_faulted hp hf, fun s t hs h ht => ?_⟩
  by_contra hr
  simp [step_keeps_standing_fault hs hr h, hs] at ht

/-- Settles O32: whatever the cause, taking a first fault writes the record and the answer from it. -/
theorem faultIsPreciseAndAnsweredFromTheRecord : Obligations.FaultIsPreciseAndAnsweredFromTheRecord := by
  intro s t c rest hp hf h ht
  obtain ⟨cause, rfl, -⟩ := step_first_fault_cases hp hf h ht
  rw [raiseFault_setPending_of_unfaulted cause rest hf]

/-- Settles O33: each cause of `step_first_fault_cases` is a row of the table, and the record holds its numbers. -/
theorem recordedFaultHasItsListedCause : Obligations.RecordedFaultHasItsListedCause := by
  intro s t c rest hp hf h ht
  obtain ⟨cause, rfl, hcause⟩ := step_first_fault_cases hp hf h ht
  rw [raiseFault_setPending_of_unfaulted cause rest hf]
  rcases hcause with ⟨hc, rfl⟩ | ⟨i, hd, hlisted⟩
  · exact .inl ⟨hc, rfl, rfl⟩
  · cases hlisted with
    | @gainReserved _ _ g _ _ _ _ _ hg =>
      have hg' : g.toNat = 6 ∨ g.toNat = 7 := by omega
      exact .inr (.inl ⟨_, _, _, _, _, _, _, _, hd, .inl ⟨hg', rfl, rfl⟩⟩)
    | fsMismatch hfs => exact .inr (.inl ⟨_, _, _, _, _, _, _, _, hd, .inr (.inl ⟨hfs, rfl, rfl⟩)⟩)
    | configReloaded hv => exact .inr (.inl ⟨_, _, _, _, _, _, _, _, hd, .inr (.inr ⟨hv, rfl, rfl⟩)⟩)
    | enccfgChannel hc => exact .inr (.inr (.inl ⟨_, hc, .inl hd, rfl, rfl⟩))
    | rdymatchChannel hc => exact .inr (.inr (.inl ⟨_, hc, .inr ⟨_, hd⟩, rfl, rfl⟩))
    | enccfgUnloaded hv => exact .inr (.inr (.inr ⟨hv, .inl ⟨_, hd⟩, rfl, rfl⟩))
    | tovoltUnloaded hv => exact .inr (.inr (.inr ⟨hv, .inr ⟨_, hd⟩, rfl, rfl⟩))

end Sys2Proof.Machine

/-! ## Words and commands, one to one (30_encoding.md R38 to R43) -/

namespace Sys2Proof

theorem extractLsb'_operandField (c : Command) {lo n : Nat} (h : lo + n ≤ 32) :
    (operandField c).extractLsb' lo n = c.extractLsb' lo n := by
  simp [operandField, BitVec.extractLsb'_extractLsb'_of_le h]

theorem ofNat_eq_opField {c : Command} {n : Nat} (h : (opField c).toNat = n) :
    BitVec.ofNat 4 n = c.extractLsb' 32 4 := by
  rw [← h, BitVec.ofNat_toNat, BitVec.setWidth_eq, opField]

/-- The decoder reads every bit of a legal word: OP and the reserved bits by its tests, the others as operands. So each
part of the encoding is a field of the word, and adjacent fields join up to the whole word. -/
theorem encode_of_decode {c : Command} {i : Instr} (h : decode c = .ok i) : encode i = c := by
  unfold decode at h
  simp (disch := decide) only [extractLsb'_operandField] at h
  split at h
  case h_1 hop =>
    split at h
    · rename_i hz
      obtain ⟨hz14, hz8⟩ := hz
      cases h
      rw [encode, ofNat_eq_opField hop, ← hz14, ← hz8]
      simp (disch := decide) only [BitVec.extractLsb'_append_extractLsb'_eq_extractLsb']
      exact BitVec.extractLsb'_eq_self
    · cases h
  case h_10 => cases h
  all_goals
    rename_i hop
    split at h
    · rename_i hz
      cases h
      rw [encode, ofNat_eq_opField hop, ← hz]
      simp (disch := decide) only [BitVec.extractLsb'_append_extractLsb'_eq_extractLsb']
      exact BitVec.extractLsb'_eq_self
    · cases h

/-- Settles O2: `decode_encode`. -/
theorem decodeOfEncodeIsTheInstruction : Obligations.DecodeOfEncodeIsTheInstruction := decode_encode

/-- Settles O3: `encode_of_decode`. -/
theorem encodeOfDecodeIsTheWord : Obligations.EncodeOfDecodeIsTheWord := fun _ _ => encode_of_decode

/-! ## The opcode table (R41, R42) -/

/-- A word is its OP and its operand field (R38). -/
theorem command_eq_iff_fields (c d : Command) :
    c = d ↔ opField c = opField d ∧ operandField c = operandField d := by
  have join (x : Command) : opField x ++ operandField x = x :=
    (BitVec.extractLsb'_append_extractLsb'_eq_extractLsb' (x := x) rfl).trans BitVec.extractLsb'_eq_self
  refine ⟨fun h => h ▸ ⟨rfl, rfl⟩, fun ⟨hop, ha⟩ => ?_⟩
  rw [← join c, ← join d, hop, ha]

/-- The OP a row of the table assigns to its operation. -/
def assignedOp (m : Mnemonic) : BitVec 4 := opField (opcodeRow m).pattern

theorem assignedOp_injective : Function.Injective assignedOp := by
  intro m m'
  cases m <;> cases m' <;> decide

/-- Each row's mask covers OP and the reserved operand bits of R41, and its pattern has zeros there. -/
theorem opcodeRow_fields (m : Mnemonic) :
    opField (opcodeRow m).mask = BitVec.allOnes 4 ∧
      operandField (opcodeRow m).mask = reservedOperandBits (assignedOp m) ∧
      operandField (opcodeRow m).pattern = 0#32 := by
  cases m <;> decide

theorem opcodeRow_holds_iff (c : Command) (m : Mnemonic) :
    (opcodeRow m).holds c = true ↔
      opField c = assignedOp m ∧ operandField c &&& reservedOperandBits (assignedOp m) = 0#32 := by
  obtain ⟨hop, ha, hz⟩ := opcodeRow_fields m
  rw [OpcodeRow.holds, decide_eq_true_iff, command_eq_iff_fields, hz, ← ha]
  simp only [opField, operandField, BitVec.extractLsb'_and] at hop ⊢
  rw [hop, BitVec.and_allOnes]
  rfl

/-- A word of some row is legal (R42). -/
theorem legalCommand_of_row {c : Command} {m : Mnemonic} (h : (opcodeRow m).holds c = true) :
    legalCommand c = true := by
  obtain ⟨hop, ha⟩ := (opcodeRow_holds_iff c m).mp h
  have hassigned : 1 ≤ (assignedOp m).toNat ∧ (assignedOp m).toNat ≤ 9 := by cases m <;> decide
  simp [legalCommand_eq, hop, ha, hassigned]

theorem encode_holds_row (i : Instr) : (opcodeRow i.mnemonic).holds (encode i) = true := by
  cases i with
  | loadcfg fs asel g dr cm cp cl cq => exact Laws.EncodesIntoItsRow.loadcfg fs asel g dr cm cp cl cq
  | enccfg ch => exact Laws.EncodesIntoItsRow.enccfg ch
  | cfgbytes w => exact Laws.EncodesIntoItsRow.cfgbytes w
  | cfgword b0 b1 => exact Laws.EncodesIntoItsRow.cfgword b0 b1
  | decstat w => exact Laws.EncodesIntoItsRow.decstat w
  | rdymatch ch w => exact Laws.EncodesIntoItsRow.rdymatch ch w
  | decconv b0 b1 => exact Laws.EncodesIntoItsRow.decconv b0 b1
  | encconv raw => exact Laws.EncodesIntoItsRow.encconv raw
  | tovolt raw => exact Laws.EncodesIntoItsRow.tovolt raw

/-- A word that decodes is in the row of its command, since it is that command's encoding. -/
theorem decode_holds_row {c : Command} {i : Instr} (h : decode c = .ok i) : (opcodeRow i.mnemonic).holds c = true := by
  simpa [encode_of_decode h] using encode_holds_row i

/-- Settles O4: a word that decodes is in its command's row; a word of a row is legal, so it decodes, and no two rows
share an OP. -/
theorem decoderAgreesWithOpcodeTable : Obligations.DecoderAgreesWithOpcodeTable := by
  intro c m
  constructor
  · rintro ⟨i, hd, rfl⟩
    exact decode_holds_row hd
  · intro hrow
    have hok := (isOk_decode c).trans (legalCommand_of_row hrow)
    cases hd : decode c with
    | error e => simp [hd, Except.isOk, Except.toBool] at hok
    | ok i =>
      obtain ⟨hi, -⟩ := (opcodeRow_holds_iff c _).mp (decode_holds_row hd)
      obtain ⟨hm, -⟩ := (opcodeRow_holds_iff c m).mp hrow
      exact ⟨i, rfl, assignedOp_injective (hi.symm.trans hm)⟩

end Sys2Proof

/-! ## What the codecs undo (R58, R61, R63, R67) -/

namespace Sys2Proof.Machine

theorem zext32_low (w : Half) : (zext32 w).extractLsb' 0 16 = w :=
  (zext32_extractLsb' w (by decide)).trans BitVec.extractLsb'_eq_self

theorem zext32_firstByte (w : Half) : (zext32 w).extractLsb' 8 8 = firstByte w := zext32_extractLsb' w (by decide)

theorem zext32_secondByte (w : Half) : (zext32 w).extractLsb' 0 8 = secondByte w := zext32_extractLsb' w (by decide)

theorem sext32_low (w : Half) : (sext32 w).extractLsb' 0 16 = w := by
  rw [sext32, BitVec.signExtend_eq_append_of_le (by decide), BitVec.extractLsb'_cast]
  exact BitVec.extractLsb'_append_eq_right

/-- Channel operands in range name the same channel only if they are equal: none is truncated (R57). -/
theorem channel_eq_iff {ch ch' : BitVec 8} (hc : ch.toNat < 4) (hc' : ch'.toNat < 4) :
    (⟨ch.toNat, hc⟩ : Fin 4) = ⟨ch'.toNat, hc'⟩ ↔ ch = ch' := by
  rw [Fin.mk.injEq, BitVec.toNat_inj]

theorem muxOfChannel_injective : Function.Injective muxOfChannel := by
  decide

/-- The bits of the start word below the multiplexer code are its other fields, which come from CFG (R45). -/
theorem startWord_belowMux (c : Cfg) (mux mux' : BitVec 3) :
    (startWord c mux).extractLsb' 0 12 = (startWord c mux').extractLsb' 0 12 := by
  have join (w : Half) : w.extractLsb' 9 3 ++ w.extractLsb' 8 1 ++ w.extractLsb' 5 3 ++ w.extractLsb' 4 1 ++
      w.extractLsb' 3 1 ++ w.extractLsb' 2 1 ++ w.extractLsb' 0 2 = w.extractLsb' 0 12 := by
    simp (disch := decide) only [BitVec.extractLsb'_append_extractLsb'_eq_extractLsb']
  obtain ⟨-, -, hgain, hmode, hrate, hcm, hcp, hcl, hcq⟩ := startWord_fields c mux
  obtain ⟨-, -, hgain', hmode', hrate', hcm', hcp', hcl', hcq'⟩ := startWord_fields c mux'
  rw [← join, ← join, hgain, hmode, hrate, hcm, hcp, hcl, hcq, hgain', hmode', hrate', hcm', hcp', hcl', hcq']

theorem readyBit_startWord (c : Cfg) (mux : BitVec 3) : readyBit (startWord c mux) = 1#1 := by
  obtain ⟨hready, -⟩ := startWord_fields c mux
  exact hready

theorem activeMux_startWord (c : Cfg) (mux : BitVec 3) : activeMux (startWord c mux) = mux := by
  obtain ⟨-, hmux, -⟩ := startWord_fields c mux
  exact hmux

/-- Settles O15: the start words of two channels share every field but the multiplexer code, and that code tells
channels apart. -/
theorem enccfgWordsDifferInMuxOnly : Obligations.EnccfgWordsDifferInMuxOnly := by
  intro s ch ch' hf hv hc hc'
  refine ⟨_, _, exec_enccfg_of_loaded hf hv hc, exec_enccfg_of_loaded hf hv hc', ?_⟩
  simp (disch := decide) only [zext32_extractLsb']
  refine ⟨?_, startWord_belowMux _ _ _, ?_⟩
  · exact (readyBit_startWord _ _).trans (readyBit_startWord _ _).symm
  · have hmux : activeMux (startWord s.cfg (muxOfChannel ⟨ch.toNat, hc⟩)) =
        activeMux (startWord s.cfg (muxOfChannel ⟨ch'.toNat, hc'⟩)) ↔ ch = ch' := by
      rw [activeMux_startWord, activeMux_startWord, muxOfChannel_injective.eq_iff, channel_eq_iff]
    exact hmux

/-- Settles O18: the two bytes of R are the wire bytes of W. -/
theorem cfgwordUndoesCfgbytes : Obligations.CfgwordUndoesCfgbytes := by
  intro w s hf
  refine ⟨_, exec_cfgbytes_of_unfaulted w hf, ?_⟩
  rw [zext32_firstByte, zext32_secondByte, exec_cfgword_of_unfaulted _ _ hf, be16_firstByte_secondByte]
  rfl

/-- The status of a ready word: 8 for the ready bit plus the multiplexer code (R62, R63). -/
theorem ready_append_mux_setWidth (c : Fin 4) :
    (1#1 ++ muxOfChannel c).setWidth 32 = BitVec.ofNat 32 (12 + c.val) := by
  revert c
  decide

theorem readyAndMatching_startWord (cfg : Cfg) (c c' : Fin 4) :
    readyAndMatching c' (startWord cfg (muxOfChannel c)) = decide (c' = c) := by
  rw [readyAndMatching, readyBit_startWord, activeMux_startWord, beq_self_eq_true, Bool.true_and, beq_eq_decide]
  simp only [muxOfChannel_injective.eq_iff, eq_comm]

/-- Settles O21: the start word has the ready bit and its channel's multiplexer code, and no other channel has that
code. -/
theorem readBackOfEncodedWordMatchesItsChannelOnly : Obligations.ReadBackOfEncodedWordMatchesItsChannelOnly := by
  intro s ch ch' hf hv hc hc'
  refine ⟨_, exec_enccfg_of_loaded hf hv hc, ?_, ?_⟩
  · rw [zext32_low, exec_decstat_of_unfaulted _ hf, readyBit_startWord, activeMux_startWord, ready_append_mux_setWidth]
    rfl
  · rw [zext32_low, exec_rdymatch_of_channel _ hf hc', readyAndMatching_startWord]
    simp only [channel_eq_iff]
    by_cases h : ch' = ch
    · simp [h, complete_eq]
    · simp [h, complete_eq]

/-- Settles O24: sign extension and zero extension keep the low half, so each command undoes the other; the byte pair of
an integer is that of its 16-bit word, and a pair with the same result assembles the same word. -/
theorem conversionCodecIsABijection : Obligations.ConversionCodecIsABijection := by
  intro s hf
  refine ⟨fun raw => ⟨_, exec_encconv_of_unfaulted raw hf, ?_⟩,
    fun b0 b1 => ⟨_, exec_decconv_of_unfaulted b0 b1 hf, ?_⟩, fun n hlow hhigh => ?_⟩
  · rw [zext32_firstByte, zext32_secondByte, exec_decconv_of_unfaulted _ _ hf, be16_firstByte_secondByte]
    rfl
  · rw [sext32_low, exec_encconv_of_unfaulted _ hf]
    rfl
  · have hcode : (BitVec.ofInt 16 n).toInt = n := BitVec.toInt_ofInt_eq_self (by decide) hlow (by omega)
    refine ⟨(firstByte (.ofInt 16 n), secondByte (.ofInt 16 n)), ⟨_, exec_decconv_of_unfaulted _ _ hf, ?_⟩, ?_⟩
    · rw [sext32_toInt, be16_firstByte_secondByte, hcode]
    · rintro ⟨b0, b1⟩ ⟨r, hr, hn⟩
      obtain rfl : r = sext32 (be16 b0 b1) := by
        rw [exec_decconv_of_unfaulted _ _ hf] at hr
        cases hr
        rfl
      have hword : BitVec.ofInt 16 n = be16 b0 b1 := BitVec.eq_of_toInt_eq (by rw [hcode, ← hn, sext32_toInt])
      rw [hword, firstByte_be16, secondByte_be16]

/-! ## The scaler over codes (R72), and VOLTWIRE (R55) -/

/-- Settles O27: the result is the product with a full scale that is not negative, and no code is beyond the ends. -/
theorem scaleIsStrictlyIncreasing : Obligations.ScaleIsStrictlyIncreasing := by
  intro fs
  refine ⟨fun hfs raw raw' => ?_, fun raw => ?_, fun raw => ?_⟩
  · rw [scale_toInt, scale_toInt]
    exact (Int.mul_lt_mul_right (by omega)).symm
  · rw [scale_toInt, scale_toInt, scale_toInt]
    exact ⟨Int.mul_le_mul_of_nonneg_right raw.le_toInt (Int.natCast_nonneg _),
      Int.mul_le_mul_of_nonneg_right (Int.le_of_lt_add_one raw.toInt_lt) (Int.natCast_nonneg _)⟩
  · simp [scale]

/-- Settles O28: the low half of DECCONV's R is the code of the two bytes, and the block is still loaded. -/
theorem voltwireScalesTheWireBytes : Obligations.VoltwireScalesTheWireBytes := by
  intro b0 b1 s hf hv
  refine ⟨_, _, _, _, exec_decconv_of_unfaulted b0 b1 hf, rfl, exec_tovolt_of_loaded _ hf hv, rfl, ?_⟩
  · rw [scale_toInt, sext32_low]
    rfl

/-- Settles O44: the bytes of R are the wire bytes of W. -/
theorem cfgbytesResultIsTheConfigurationWritePayload : Obligations.CfgbytesResultIsTheConfigurationWritePayload := by
  intro w s
  refine ⟨fun hf => ⟨_, exec_cfgbytes_of_unfaulted w hf, ?_⟩, rfl⟩
  rw [zext32_firstByte, zext32_secondByte]
  rfl

end Sys2Proof.Machine

/-! ## The effect of a command, as a function of what it reads

One function gives the effect that an answered command has on the state, from the fault flag, CFG_VALID and CFG. What a
command writes is then read off the effect, and what it does not read off the function's arguments. -/

namespace Sys2Proof.Machine

/-- How an answered command changes the state (R39, R56, R74, R75), as `Effect.apply` carries it out. -/
inductive Effect where
  | answersRecord
  | raises (cause : FaultCause)
  | completes (r : RWord)
  | loads (cfg : Cfg)

def Effect.apply : Effect → State → State
  | .answersRecord, s => respondFault s
  | .raises cause, s => raiseFault cause s
  | .completes r, s => complete r s
  | .loads cfg, s => complete 0#32 (s.setCfg cfg)

/-- The effect of a command with a channel operand (R57, R64): `r` of the channel, or CHANNEL_RANGE. -/
def channelEffect (ch : BitVec 8) (r : Fin 4 → RWord) : Effect :=
  (channelOf ch).elim (.raises .channelRange) fun k => .completes (r k)

/-- The effect of a command on an unfaulted block: its checks in order, then what it computes. -/
def commandEffect (valid : Bool) (cfg : Cfg) : Instr → Effect
  | .loadcfg fs asel g dr cm cp cl cq =>
    if valid then .raises .configReloaded
    else if gainReserved g then .raises .gainReserved
    else if fs ≠ Config.fsOfGain g then .raises .fsMismatch
    else .loads { addrSel := asel, gain := g, rate := dr, compMode := cm, compPol := cp, compLat := cl, compQue := cq,
                  fsMv := fs }
  | .enccfg ch =>
    if valid then channelEffect ch fun k => zext32 (startWord cfg (muxOfChannel k)) else .raises .notConfigured
  | .cfgbytes w => .completes (zext32 w)
  | .cfgword b0 b1 => .completes (zext32 (be16 b0 b1))
  | .decstat w => .completes ((readyBit w ++ activeMux w).setWidth 32)
  | .rdymatch ch w => channelEffect ch fun k => (BitVec.ofBool (readyAndMatching k w)).setWidth 32
  | .decconv b0 b1 => .completes (sext32 (be16 b0 b1))
  | .encconv raw => .completes (zext32 raw)
  | .tovolt raw => if valid then .completes (scale raw cfg.fsMv) else .raises .notConfigured

/-- The effect of a presented word, given what it decodes to. A faulted block answers its record (R75), and an
illegal word is a fault (R77). -/
def effectOf (flt valid : Bool) (cfg : Cfg) : Except DecodeReject Instr → Effect
  | .ok i => if flt then .answersRecord else commandEffect valid cfg i
  | .error _ => if flt then .answersRecord else .raises .illegalCommand

theorem exec_of_unfaulted (i : Instr) {s : State} (hf : s.fault.flt = false) :
    exec i s = .next ((commandEffect s.cfgValid s.cfg i).apply s) := by
  cases i with
  | loadcfg fs asel g dr cm cp cl cq =>
    simp only [exec, execLoadcfg, unlessFaulted_of_unfaulted _ _ hf, commandEffect]
    split_ifs <;> rfl
  | enccfg ch =>
    simp only [exec, execEnccfg, unlessFaulted_of_unfaulted _ _ hf, whenConfigured, withChannel, commandEffect,
      channelEffect]
    cases channelOf ch <;> split_ifs <;> rfl
  | rdymatch ch w =>
    simp only [exec, execRdymatch, unlessFaulted_of_unfaulted _ _ hf, withChannel, commandEffect, channelEffect]
    cases channelOf ch <;> rfl
  | tovolt raw =>
    simp only [exec, execTovolt, unlessFaulted_of_unfaulted _ _ hf, whenConfigured, commandEffect]
    split_ifs <;> rfl
  | cfgbytes w => exact exec_cfgbytes_of_unfaulted w hf
  | cfgword b0 b1 => exact exec_cfgword_of_unfaulted b0 b1 hf
  | decstat w => exact exec_decstat_of_unfaulted w hf
  | decconv b0 b1 => exact exec_decconv_of_unfaulted b0 b1 hf
  | encconv raw => exact exec_encconv_of_unfaulted raw hf

/-- A command's meaning is its effect. -/
theorem exec_eq (i : Instr) (s : State) :
    exec i s = .next ((effectOf s.fault.flt s.cfgValid s.cfg (.ok i)).apply s) := by
  cases hf : s.fault.flt with
  | true => exact exec_faulted i s hf
  | false => exact exec_of_unfaulted i hf

/-- A step with a command presented applies that command's effect, legal or not. -/
theorem step_command {s : State} {c : Command} {rest : List HostEvent} (hp : s.pending = .command c :: rest) :
    step s = .next ((effectOf s.fault.flt s.cfgValid s.cfg (decode c)).apply (s.setPending rest)) := by
  cases hd : decode c with
  | ok i => exact (step_legal hp hd).trans (exec_eq i _)
  | error e =>
    rw [step_illegal hp hd, illegalCommand, unlessFaulted, State.setPending_fault, effectOf]
    split_ifs <;> rfl

/-! ## What an effect writes -/

def Effect.faults : Effect → Bool
  | .raises _ => true
  | _ => false

def Effect.loadsCfg : Effect → Bool
  | .loads _ => true
  | _ => false

/-- The record after a fault: only the first fault writes it (R19, R74). -/
def recordAfter (cause : FaultCause) (fr : FaultRecord) : FaultRecord :=
  if fr.flt then fr else { flt := true, fcode := faultCode cause, finfo := faultInfo cause }

theorem raiseFault_eq (cause : FaultCause) (s : State) :
    raiseFault cause s = respondFault (s.setFault (recordAfter cause s.fault)) := by
  unfold raiseFault recordFault recordAfter
  split <;> rfl

@[simp] theorem Effect.apply_pending (e : Effect) (s : State) : (e.apply s).pending = s.pending := by
  cases e with
  | raises cause => rw [apply, raiseFault_eq]; rfl
  | _ => rfl

@[simp] theorem Effect.apply_flt (e : Effect) (s : State) : (e.apply s).fault.flt = (e.faults || s.fault.flt) := by
  cases e with
  | raises cause => exact raiseFault_flt cause s
  | _ => rfl

@[simp] theorem Effect.apply_cfgValid (e : Effect) (s : State) : (e.apply s).cfgValid = (e.loadsCfg || s.cfgValid) := by
  cases e with
  | raises cause => exact raiseFault_cfgValid cause s
  | _ => rfl

/-- Every effect replaces the last response, and none reads it. -/
theorem Effect.apply_setResp (e : Effect) (s : State) (r : Option Response) : e.apply (s.setResp r) = e.apply s := by
  cases e with
  | raises cause => rw [apply, apply, raiseFault_eq, raiseFault_eq]; rfl
  | _ => rfl

/-- The state with another configuration. -/
def State.withConfig (s : State) (cfg : Cfg) (valid : Bool) : State := { s with cfg := cfg, cfgValid := valid }

/-- An effect that does not load CFG carries any configuration along. -/
theorem Effect.apply_withConfig {e : Effect} (he : e.loadsCfg = false) (s : State) (cfg : Cfg) (valid : Bool) :
    e.apply (s.withConfig cfg valid) = (e.apply s).withConfig cfg valid := by
  cases e with
  | raises cause => rw [apply, apply, raiseFault_eq, raiseFault_eq]; rfl
  | loads => cases he
  | _ => rfl

/-- An effect carries another CFG along, or overwrites it. -/
theorem Effect.apply_other_cfg (e : Effect) (s : State) (cfg : Cfg) :
    (e.apply { s with cfg := cfg } = { e.apply s with cfg := cfg } ∧
      (e.apply s).cfg = s.cfg ∧ (e.apply s).cfgValid = s.cfgValid) ∨
    e.apply { s with cfg := cfg } = e.apply s := by
  cases e with
  | raises cause =>
    rw [apply, apply, raiseFault_eq, raiseFault_eq]
    exact .inl ⟨rfl, rfl, rfl⟩
  | loads => exact .inr rfl
  | _ => exact .inl ⟨rfl, rfl, rfl⟩

theorem channelEffect_faults (ch : BitVec 8) (r : Fin 4 → RWord) :
    (channelEffect ch r).faults = !decide (ch.toNat ≤ 3) := by
  rcases Nat.lt_or_ge ch.toNat 4 with hc | hc
  · simp [channelEffect, channelOf_of_lt hc, Effect.faults, Nat.le_of_lt_succ hc]
  · simp [channelEffect, channelOf_of_le hc, Effect.faults, Nat.lt_of_succ_le hc]

theorem channelEffect_loadsCfg (ch : BitVec 8) (r : Fin 4 → RWord) : (channelEffect ch r).loadsCfg = false := by
  unfold channelEffect
  cases channelOf ch <;> rfl

theorem Effect.apply_faultListed (e : Effect) {s : State} (hs : s.faultListed) : (e.apply s).faultListed := by
  cases e with
  | raises cause =>
    cases hf : s.fault.flt with
    | true => rwa [apply, raiseFault_of_faulted s cause hf]
    | false =>
      rw [apply, raiseFault_of_unfaulted s cause hf]
      exact ⟨nofun, fun _ => by cases cause <;> simp [faultCode, faultInfo]⟩
  | _ => exact hs

/-! ## What a command reads -/

/-- While CFG_VALID = 0 no command reads CFG (R16). -/
theorem effectOf_unloaded (flt : Bool) (cfg cfg' : Cfg) (d : Except DecodeReject Instr) :
    effectOf flt false cfg d = effectOf flt false cfg' d := by
  cases d with
  | error e => rfl
  | ok i => cases i <;> rfl

/-- No command reads ADDR_SEL (R15). -/
theorem effectOf_addrSel (flt valid : Bool) (cfg : Cfg) (a : BitVec 2) (d : Except DecodeReject Instr) :
    effectOf flt valid { cfg with addrSel := a } d = effectOf flt valid cfg d := by
  cases d with
  | error e => rfl
  | ok i => cases i <;> rfl

/-- The commands that R91 lets a host send before LOADCFG read neither CFG nor CFG_VALID, and do not load CFG. -/
theorem effectOf_of_six {i : Instr} (hi : i.mnemonic = .CFGBYTES ∨ i.mnemonic = .CFGWORD ∨ i.mnemonic = .DECSTAT ∨
    i.mnemonic = .RDYMATCH ∨ i.mnemonic = .DECCONV ∨ i.mnemonic = .ENCCONV) (flt valid valid' : Bool)
    (cfg cfg' : Cfg) :
    effectOf flt valid cfg (.ok i) = effectOf flt valid' cfg' (.ok i) ∧
      (effectOf flt valid cfg (.ok i)).loadsCfg = false := by
  cases flt with
  | true => exact ⟨rfl, rfl⟩
  | false =>
    cases i with
    | loadcfg | enccfg | tovolt => simp [Instr.mnemonic] at hi
    | rdymatch ch w => exact ⟨rfl, channelEffect_loadsCfg ch _⟩
    | _ => exact ⟨rfl, rfl⟩

/-! ## Steps and runs that always go on (logs 1, 2, 3 and 8) -/

/-- What the host can present: nothing, a command word, or reset. -/
theorem pending_cases (s : State) :
    s.pending = [] ∨ (∃ c rest, s.pending = .command c :: rest) ∨ ∃ rest, s.pending = .reset :: rest := by
  rcases s.pending with _ | ⟨_ | _, rest⟩
  · exact .inl rfl
  · exact .inr (.inl ⟨_, _, rfl⟩)
  · exact .inr (.inr ⟨_, rfl⟩)

/-- Every step answers a next state, and takes the first entry off the host's list. -/
theorem step_next (s : State) : ∃ t, step s = .next t ∧ t.pending = s.pending.tail := by
  rcases pending_cases s with hp | ⟨c, rest, hp⟩ | ⟨rest, hp⟩
  · exact ⟨s, step_idle hp, by rw [hp]; rfl⟩
  · exact ⟨_, step_command hp, by simp [hp]⟩
  · exact ⟨_, step_reset hp, by rw [hp]; rfl⟩

/-- Settles O11: an empty list, a command and a reset all have a next state. -/
theorem everyStepAnswersANextState : Obligations.EveryStepAnswersANextState := fun s =>
  let ⟨t, ht, _⟩ := step_next s
  ⟨t, ht⟩

/-- Settles O12, by induction on the number of steps. -/
theorem commandsAreTakenInOrderOnePerStep : Obligations.CommandsAreTakenInOrderOnePerStep := by
  intro k
  induction k with
  | zero => exact fun s => ⟨s, rfl, rfl⟩
  | succ k ih =>
    intro s
    obtain ⟨t, ht, hpending⟩ := step_next s
    obtain ⟨u, hu, hdrop⟩ := ih t
    exact ⟨u, (run_succ_of_step k ht).trans hu, by rw [hdrop, hpending, List.drop_tail]⟩

/-! ## Frames and noninterference of one command (R15, R21, R91) -/

/-- The five commands without a fault of their own keep the record (R59, R60, R62, R65, R66). -/
theorem exec_keeps_record_of_no_fault {i : Instr} {s t : State}
    (hi : i.mnemonic = .CFGBYTES ∨ i.mnemonic = .CFGWORD ∨ i.mnemonic = .DECSTAT ∨
      i.mnemonic = .DECCONV ∨ i.mnemonic = .ENCCONV) (h : exec i s = .next t) :
    t.fault = s.fault := by
  rw [exec_eq] at h
  cases h
  cases i with
  | loadcfg | enccfg | rdymatch | tovolt => simp [Instr.mnemonic] at hi
  | _ => cases s.fault.flt <;> rfl

/-- Settles O34: no effect writes the host's list, and the other clauses are the three ways of `exec_effect`. -/
theorem commandsWriteOnlyWhatTheyName : Obligations.CommandsWriteOnlyWhatTheyName := by
  intro i s t h
  have hpending : t.pending = s.pending := by
    rw [exec_eq] at h
    cases h
    exact Effect.apply_pending _ _
  refine ⟨hpending, fun hi => ?_, fun hi => exec_keeps_record_of_no_fault hi h, fun hf => ?_, fun hf => ?_⟩
  all_goals rcases exec_effect h with hk | hfirst | hload
  · exact ⟨hk.cfg, hk.cfgValid⟩
  · exact ⟨hfirst.cfg, hfirst.cfgValid⟩
  · obtain ⟨_, _, _, _, _, _, _, _, rfl, -⟩ := hload
    exact absurd rfl hi
  · exact hk.fault
  · simp [hfirst.unfaulted] at hf
  · exact hload.fault
  · exact hk.fault
  · simp [hfirst.unfaulted, hfirst.faulted] at hf
  · exact hload.fault

/-- Settles O36: the effect does not depend on the last response, and replaces it. -/
theorem noCommandReadsAPreviousResponse : Obligations.NoCommandReadsAPreviousResponse := by
  intro s c rest old hp
  rw [step_command hp, step_command (s := { s with resp := old }) hp]
  exact congrArg _ (Effect.apply_setResp _ (s.setPending rest) old)

/-- Settles O37: the effect of the six does not depend on the configuration, and carries it along. -/
theorem sixCommandsDoNotReadTheConfiguration : Obligations.SixCommandsDoNotReadTheConfiguration := by
  intro i s t c v hi h
  obtain ⟨hreads, hloads⟩ := effectOf_of_six hi s.fault.flt s.cfgValid v s.cfg c
  rw [exec_eq] at h ⊢
  cases h
  rw [← hreads]
  exact congrArg _ (Effect.apply_withConfig hloads s c v)

/-- A configuration with which every command has the same effect is carried along by a step, or overwritten. -/
theorem step_other_cfg (s : State) (cfg : Cfg)
    (hreads : ∀ d, effectOf s.fault.flt s.cfgValid cfg d = effectOf s.fault.flt s.cfgValid s.cfg d) :
    ∃ t, step s = .next t ∧
      (step { s with cfg := cfg } = .next { t with cfg := cfg } ∧ t.cfg = s.cfg ∧ t.cfgValid = s.cfgValid ∨
        step { s with cfg := cfg } = .next t) := by
  rcases pending_cases s with hp | ⟨c, rest, hp⟩ | ⟨rest, hp⟩
  · exact ⟨s, step_idle hp, .inl ⟨step_idle hp, rfl, rfl⟩⟩
  · refine ⟨_, step_command hp, ?_⟩
    rw [step_command (s := { s with cfg := cfg }) hp, hreads]
    rcases Effect.apply_other_cfg (effectOf s.fault.flt s.cfgValid s.cfg (decode c)) (s.setPending rest) cfg with
      ⟨hcarry, hkeep⟩ | hload
    · exact .inl ⟨congrArg _ hcarry, hkeep⟩
    · exact .inr (congrArg _ hload)
  · exact ⟨_, step_reset hp, .inr (step_reset hp)⟩

/-- Settles O38: ADDR_SEL is carried along or overwritten. -/
theorem addressSelectionIsNeverRead : Obligations.AddressSelectionIsNeverRead := by
  intro s a
  obtain ⟨t, ht, ⟨hu, hcfg, -⟩ | hu⟩ := step_other_cfg s { s.cfg with addrSel := a } (effectOf_addrSel _ _ _ a)
  · exact ⟨t, _, ht, hu, rfl, rfl, rfl, rfl, by rw [hcfg]⟩
  · exact ⟨t, t, ht, hu, rfl, rfl, rfl, rfl, rfl⟩

/-- Settles O39, by induction on the number of steps: an unloaded CFG is carried along until a step overwrites it. -/
theorem unloadedConfigurationIsNeverObserved : Obligations.UnloadedConfigurationIsNeverObserved := by
  intro k
  induction k with
  | zero => exact fun s c hv => ⟨s, _, rfl, rfl, rfl, fun h => by simp [hv] at h⟩
  | succ k ih =>
    intro s c hv
    have hreads := hv.symm ▸ effectOf_unloaded s.fault.flt c s.cfg
    obtain ⟨t, ht, ⟨hu, -, hkeep⟩ | hu⟩ := step_other_cfg s c hreads
    all_goals rw [run_succ_of_step k ht, run_succ_of_step k hu]
    · exact ih t c (hkeep.trans hv)
    · obtain ⟨u, hrun, -⟩ := commandsAreTakenInOrderOnePerStep k t
      exact ⟨u, u, hrun, hrun, rfl, fun _ => rfl⟩

end Sys2Proof.Machine

/-! ## The response (R39) and the invariant (R18, R19, R76) -/

namespace Sys2Proof.Machine

/-- The last response has the format of R39 for the record that stands. -/
def State.AnswersInFormat (t : State) : Prop :=
  ∃ r, t.resp = some r ∧ r.f = t.fault.flt ∧ (t.fault.flt = false → r.fc = 0x0#4) ∧
    (t.fault.flt = true → r.fc = t.fault.fcode ∧ r.r = t.fault.finfo.setWidth 32)

theorem respondFault_answersInFormat {s : State} (hf : s.fault.flt = true) : (respondFault s).AnswersInFormat :=
  ⟨_, rfl, hf.symm, fun h => absurd (hf.symm.trans h) nofun, fun _ => ⟨rfl, rfl⟩⟩

theorem raiseFault_answersInFormat (cause : FaultCause) (s : State) : (raiseFault cause s).AnswersInFormat :=
  respondFault_answersInFormat (raiseFault_flt cause s)

theorem complete_answersInFormat (r : RWord) {s : State} (hf : s.fault.flt = false) : (complete r s).AnswersInFormat :=
  ⟨_, rfl, hf.symm, fun _ => rfl, fun h => absurd (hf.symm.trans h) nofun⟩

/-- Every presented word, legal or not, is answered in the format of R39. -/
theorem effectOf_answersInFormat (s : State) (d : Except DecodeReject Instr) :
    ((effectOf s.fault.flt s.cfgValid s.cfg d).apply s).AnswersInFormat := by
  cases d with
  | error e =>
    rw [effectOf]
    split_ifs with hf
    · exact respondFault_answersInFormat hf
    · exact raiseFault_answersInFormat _ s
  | ok i =>
    rcases exec_cases (exec_eq i s) with ⟨hf, ht⟩ | ⟨hf, ⟨cause, ht⟩ | ⟨r, ht⟩ | ⟨cfg, -, -, -, -, ht⟩⟩
    all_goals rw [ht]
    · exact respondFault_answersInFormat hf
    · exact raiseFault_answersInFormat cause s
    · exact complete_answersInFormat r hf
    · exact complete_answersInFormat _ hf

theorem State.AnswersInFormat.respAgrees {t : State} (h : t.AnswersInFormat) : t.respAgrees := by
  obtain ⟨r, hr, hflt, hdone, hfault⟩ := h
  intro r' hr'
  cases hr.symm.trans hr'
  exact ⟨hflt, fun hf => hdone (hflt.symm.trans hf), fun hf => hfault (hflt.symm.trans hf)⟩

/-- Settles O35: the step applies the word's effect, which answers in the format. -/
theorem everyCommandIsAnsweredInTheResponseFormat : Obligations.EveryCommandIsAnsweredInTheResponseFormat := by
  intro s c rest hp
  obtain ⟨r, hr⟩ := effectOf_answersInFormat (s.setPending rest) (decode c)
  exact ⟨_, r, step_command hp, hr⟩

/-- Only an accepted LOADCFG writes CFG, and it has checked the gain and the full scale (R18, R56). -/
theorem step_keeps_cfgConsistent {s t : State} (hs : s.cfgConsistent) (h : step s = .next t) : t.cfgConsistent := by
  rcases step_effect h with hk | hfirst | ⟨_, _, _, -, -, hload⟩ | ⟨rest, -, rfl⟩
  · rwa [State.cfgConsistent, hk.cfgValid, hk.cfg]
  · rwa [State.cfgConsistent, hfirst.cfgValid, hfirst.cfg]
  · obtain ⟨_, _, _, _, _, _, _, _, -, hg, hfs, -, -, hcfg⟩ := hload
    rw [State.cfgConsistent, hcfg]
    exact fun _ => ⟨Nat.le_of_lt_succ hg, hfs⟩
  · exact nofun

theorem reset_inv (rest : List HostEvent) : (State.reset.setPending rest).Inv :=
  ⟨nofun, ⟨fun _ => ⟨rfl, rfl⟩, nofun⟩, nofun⟩

/-- Settles O41: CFG is not loaded, the record is zero, and no response is held. -/
theorem resetMeetsTheInvariant : Obligations.ResetMeetsTheInvariant := reset_inv []

/-- Settles O40: a presented word's effect writes a row of the table and answers in the format, and CFG stays consistent
in every step. -/
theorem everyStepKeepsTheInvariant : Obligations.EveryStepKeepsTheInvariant := by
  intro s t hs h
  rcases pending_cases s with hp | ⟨c, rest, hp⟩ | ⟨rest, hp⟩
  · rw [step_idle hp] at h
    cases h
    exact hs
  · have hcfg := step_keeps_cfgConsistent hs.cfgConsistent h
    rw [step_command hp] at h
    cases h
    exact ⟨hcfg, Effect.apply_faultListed (s := s.setPending rest) _ hs.faultListed,
      (effectOf_answersInFormat (s.setPending rest) (decode c)).respAgrees⟩
  · rw [step_reset hp] at h
    cases h
    exact reset_inv rest

/-! ## Faulted runs (R75) -/

/-- Without a reset in the list, a faulted block's step keeps its registers. -/
theorem step_of_faulted {s : State} (hf : s.fault.flt = true) (hr : .reset ∉ s.pending) :
    ∃ t, step s = .next t ∧ KeepsRegisters s t ∧ t.pending = s.pending.tail := by
  rcases pending_cases s with hp | ⟨c, rest, hp⟩ | ⟨rest, hp⟩
  · exact ⟨s, step_idle hp, ⟨rfl, rfl, rfl⟩, by rw [hp]; rfl⟩
  · exact ⟨_, step_command_of_faulted hp hf, ⟨rfl, rfl, rfl⟩, by rw [hp]; rfl⟩
  · simp [hp] at hr

/-- Settles O42, by induction on the number of steps. -/
theorem faultedRunStaysFaulted : Obligations.FaultedRunStaysFaulted := by
  intro k
  induction k with
  | zero => exact fun s _ _ => ⟨s, rfl, rfl, rfl, rfl⟩
  | succ k ih =>
    intro s hf hr
    obtain ⟨t, ht, hk, hpending⟩ := step_of_faulted hf hr
    obtain ⟨u, hu, hfault, hcfg, hvalid⟩ := ih t (by rw [hk.fault, hf])
      (by rw [hpending]; exact fun hmem => hr (List.mem_of_mem_tail hmem))
    exact ⟨u, (run_succ_of_step k ht).trans hu, hfault.trans hk.fault, hcfg.trans hk.cfg, hvalid.trans hk.cfgValid⟩

/-! ## Host programs (R75, R83, R91) -/

/-- A command faults an unfaulted block exactly when it is not safe there (R83, R91). -/
theorem commandEffect_faults (valid : Bool) (cfg : Cfg) (i : Instr) :
    (commandEffect valid cfg i).faults = !commandSafe valid i := by
  cases i with
  | loadcfg fs asel g dr cm cp cl cq =>
    cases valid with
    | true => rfl
    | false =>
      rcases Nat.lt_or_ge g.toNat 6 with hg | hg
      · by_cases hfs : fs = Config.fsOfGain g <;>
          simp [commandEffect, commandSafe, gainReserved_eq_false.mpr hg, hfs, Nat.le_of_lt_succ hg, Effect.faults]
      · simp [commandEffect, commandSafe, gainReserved_eq_true.mpr hg, Nat.lt_of_succ_le hg, Effect.faults]
  | enccfg ch =>
    cases valid with
    | true => exact channelEffect_faults ch _
    | false => rfl
  | rdymatch ch w => exact channelEffect_faults ch _
  | tovolt raw => cases valid <;> rfl
  | _ => rfl

/-- A safe command leaves CFG_VALID as `validAfter` says (R16). -/
theorem commandEffect_valid {valid : Bool} {i : Instr} (hi : commandSafe valid i = true) (cfg : Cfg) :
    ((commandEffect valid cfg i).loadsCfg || valid) = validAfter valid i := by
  cases i with
  | loadcfg fs asel g dr cm cp cl cq =>
    simp only [commandSafe, Bool.and_eq_true, Bool.not_eq_true', decide_eq_true_eq, beq_iff_eq] at hi
    obtain ⟨⟨rfl, hg⟩, hfs⟩ := hi
    simp [commandEffect, gainReserved_eq_false.mpr (Nat.lt_succ_of_le hg), hfs, Effect.loadsCfg, validAfter]
  | enccfg ch =>
    cases valid with
    | true => exact Bool.or_true _
    | false => rfl
  | rdymatch ch w => simp [commandEffect, channelEffect_loadsCfg, validAfter]
  | tovolt raw => cases valid <;> rfl
  | _ => rfl

/-- One step of a program on an unfaulted block: a safe command completes, and any other faults. -/
theorem step_encoded {s : State} {i : Instr} {rest : List HostEvent} (hf : s.fault.flt = false)
    (hp : s.pending = .command (encode i) :: rest) :
    ∃ t, step s = .next t ∧ t.pending = rest ∧ t.fault.flt = !commandSafe s.cfgValid i ∧
      (commandSafe s.cfgValid i = true → t.cfgValid = validAfter s.cfgValid i) := by
  refine ⟨_, (step_legal hp (decode_encode i)).trans (exec_of_unfaulted i hf), Effect.apply_pending _ _, ?_,
    fun hi => ?_⟩
  · simp [commandEffect_faults, hf]
  · simpa using commandEffect_valid hi s.cfg

theorem succeeds_zero {s : State} (hf : s.fault.flt = false) : succeeds 0 s s := by
  refine ⟨rfl, fun j hj u hu => ?_⟩
  obtain rfl := Nat.le_zero.mp hj
  cases hu
  exact hf

theorem unfaulted_of_succeeds {k : Nat} {s t : State} (h : succeeds k s t) : s.fault.flt = false :=
  h.2 0 (Nat.zero_le k) s rfl

/-- From an unfaulted state a run succeeds when it does from the next state on. -/
theorem succeeds_succ_iff {k : Nat} {s t u : State} (hf : s.fault.flt = false) (hstep : step s = .next t) :
    succeeds (k + 1) s u ↔ succeeds k t u := by
  constructor
  · rintro ⟨hrun, hok⟩
    exact ⟨(run_succ_of_step k hstep).symm.trans hrun, fun j hj v hv =>
      hok (j + 1) (Nat.succ_le_succ hj) v ((run_succ_of_step j hstep).trans hv)⟩
  · rintro ⟨hrun, hok⟩
    refine ⟨(run_succ_of_step k hstep).trans hrun, fun j hj v hv => ?_⟩
    cases j with
    | zero =>
      cases hv
      exact hf
    | succ j => exact hok j (Nat.le_of_succ_le_succ hj) v ((run_succ_of_step j hstep).symm.trans hv)

/-- Settles O43, by induction on the program: a safe command leads to the rest of the program with CFG_VALID as
`safeProgram` tracks it, and any other to a faulted state, from which no run succeeds. -/
theorem programsSucceedExactlyWhenBootOrderIsKept : Obligations.ProgramsSucceedExactlyWhenBootOrderIsKept := by
  intro s prog
  induction prog generalizing s with
  | nil => exact fun hf _ => iff_of_true ⟨s, succeeds_zero hf⟩ rfl
  | cons i is ih =>
    intro hf hp
    obtain ⟨t, hstep, hpending, hflt, hvalid⟩ := step_encoded hf hp
    simp only [List.length_cons, succeeds_succ_iff hf hstep, safeProgram]
    cases hi : commandSafe s.cfgValid i with
    | true =>
      rw [Bool.true_and, ← hvalid hi]
      exact ih t (by rw [hflt, hi]; rfl) hpending
    | false =>
      refine iff_of_false (fun ⟨u, hu⟩ => ?_) nofun
      simp [unfaulted_of_succeeds hu, hi] at hflt

/-! ## Words, steps and resets as the spec lists them (R38, R40, R43, R82, R90) -/

/-- Settles O1: ten closed words, decoded. -/
theorem specExampleWordsDecode : Obligations.SpecExampleWordsDecode := by
  unfold Obligations.SpecExampleWordsDecode
  decide

/-- Settles O5: `step_legal`. -/
theorem stepRunsTheDecodedCommand : Obligations.StepRunsTheDecodedCommand := fun _ _ _ _ hp hd => step_legal hp hd

/-- Settles O8: `exec_faulted`. -/
theorem everyMeaningAnswersTheRecordWhenFaulted : Obligations.EveryMeaningAnswersTheRecordWhenFaulted := exec_faulted

/-- Settles O9: `step_reset`. -/
theorem resetClearsValidAndFaultRecord : Obligations.ResetClearsValidAndFaultRecord :=
  ⟨⟨rfl, rfl⟩, fun _ _ hp => ⟨_, step_reset hp, rfl, rfl, rfl⟩⟩

/-- Settles O10: `step_idle`. -/
theorem nothingPresentedChangesNothing : Obligations.NothingPresentedChangesNothing := fun _ => step_idle

end Sys2Proof.Machine
